-- ==== Sys2Proof/Word.lean ====
section
/-! DEFINITION. The word types of the QOI pixel codec block: the byte, the pixel register and the configuration
registers (spec/00_scope.md R7, spec/10_state.md R11, R19). -/

namespace Sys2Proof

/-- A byte: an unsigned integer 0..255 (R7). -/
abbrev Byte := BitVec 8

/-- A pixel register: four bytes in the order R, G, B, A, all four always present (R11). -/
structure Pixel where
  r : Byte
  g : Byte
  b : Byte
  a : Byte
deriving DecidableEq, Repr, Inhabited

/-- The configuration registers of `ENC` and `DEC` (R19), which are also the fields of a stream header (R61).
Any value of the widths is a value of the type; the checks of R92 (`configError`, Sys2Proof/Machine/Ops.lean) say which are
legal. -/
structure ImageConfig where
  width : BitVec 32
  height : BitVec 32
  channels : Byte
  colorspace : Byte
deriving DecidableEq, Repr, Inhabited

end Sys2Proof
end

