-- ==== Sys2Proof/Config.lean ====
section
/-! DEFINITION. The fixed parameters of the block (spec/00_scope.md R5), the three units (spec/10_state.md R10) and the
free values for what the spec leaves open (spec/93_implementation_defined.md U1). -/

namespace Sys2Proof

/-- The three kinds of unit (R10). -/
inductive UnitId where
  | hdr
  | enc
  | dec
deriving DecidableEq, Repr, Inhabited

/-- The result of an `HDR` operation (R26): 14 bytes after `HDR_ENC`, the four fields after `HDR_DEC`. -/
inductive HdrResult where
  | empty
  | header (bytes : List Byte)
  | fields (cfg : ImageConfig)
deriving DecidableEq, Repr, Inhabited

namespace Config

/-- `RUN_MAX`: the longest run one `RLE` chunk carries (R5). -/
def runMax : Nat := 62

/-- `HEADER_LEN` (R5). -/
def headerLen : Nat := 14

/-- `END_LEN` (R5). -/
def endLen : Nat := 8

/-- `PREV_INIT`: the previous pixel at the start of every operation (R5, R13). -/
def prevInit : Pixel := ⟨0, 0, 0, 255⟩

/-- `CACHE_INIT`: what every cache slot holds at the start of every operation (R5, R12). -/
def cacheInit : Pixel := ⟨0, 0, 0, 0⟩

/-- FREE VALUE (DESIGN CHOICE, safe, log 5): the bytes left in a unit's void output after its `n`-th error (R196, U1). -/
opaque voidBytes : UnitId → Nat → List Byte

/-- FREE VALUE (DESIGN CHOICE, safe, log 5): the decoder's void configuration registers after its `n`-th error (R196, U1). -/
opaque voidConfig : UnitId → Nat → ImageConfig

/-- FREE VALUE (DESIGN CHOICE, safe, log 5): the void result of `HDR` after its `n`-th error (R196, U1). -/
opaque voidResult : Nat → HdrResult

end Config
end Sys2Proof
end

