-- ==== Sys2Proof/Syntax.lean ====
section
/-! DEFINITION. The instructions: the six chunk types and the two fixed-format records of spec/opcode_table.json
(spec/00_scope.md R9 point 3, spec/30_encoding.md R61 to R70). Fields hold the MEANING of a wire field (the signed
delta, the run), never its biased encoding (R71). -/

namespace Sys2Proof

/-- One constructor per row of spec/opcode_table.json. -/
inductive Instr where
  /-- `RGB r, g, b` (R69). -/
  | rgb (r g b : Byte)
  /-- `RGBA r, g, b, a` (R70). -/
  | rgba (r g b a : Byte)
  /-- `INDEX i`: a 6-bit slot number (R65). -/
  | index (slot : BitVec 6)
  /-- `DIFF dr, dg, db`, each in -2..1 (R66). -/
  | diff (dr dg db : Int)
  /-- `LUMA dg, drg, dbg` with `drg = dr - dg`, `dbg = db - dg`; dg in -32..31, the others in -8..7 (R67). -/
  | luma (dg drg dbg : Int)
  /-- `RLE n`, n in 1..62 (R68). -/
  | rle (run : Nat)
  /-- `HEADER w, h, c, cs` (R61). -/
  | header (cfg : ImageConfig)
  /-- `END` (R62). -/
  | endMarker
deriving DecidableEq, Repr

end Sys2Proof
end

