-- ==== Sys2Proof/WellFormed.lean ====
section
/-! DEFINITION. Which terms of `Instr` stand for words of the wire format: every signed field in its stated range
(spec/30_encoding.md R66, R67, R68, R71). A `HEADER` with an illegal field value is well formed: its bytes exist,
and executing it raises the error of spec/40_header.md R93 (R72: "errors, not reserved values"). -/

namespace Sys2Proof

/-- The range of an instruction's fields, as the encoding tables give it. -/
abbrev Instr.WellFormed : Instr → Prop
  | .rgb _ _ _ => True
  | .rgba _ _ _ _ => True
  | .index _ => True
  | .diff dr dg db => (-2 ≤ dr ∧ dr ≤ 1) ∧ (-2 ≤ dg ∧ dg ≤ 1) ∧ (-2 ≤ db ∧ db ≤ 1)
  | .luma dg drg dbg => (-32 ≤ dg ∧ dg ≤ 31) ∧ (-8 ≤ drg ∧ drg ≤ 7) ∧ (-8 ≤ dbg ∧ dbg ≤ 7)
  | .rle run => 1 ≤ run ∧ run ≤ Config.runMax
  | .header _ => True
  | .endMarker => True

end Sys2Proof
end

