-- ==== Sys2Proof/Decode.lean ====
section
/-! DEFINITION. The wire format (spec/30_encoding.md): the decoder, total on any bytes and rejecting by name, and after it
the encoder, written from the same tables. A byte's meaning depends on where it stands (R60, R62): offset 0 holds
the header, the chunk region holds chunks, the last 8 bytes are the end marker; `Frame` says which. -/

namespace Sys2Proof

/-- Where in the stream the bytes stand (R49, R60). -/
inductive Frame where
  | start
  | chunk
  | trailer
deriving DecidableEq, Repr

/-- Why the decoder rejects. No chunk byte is illegal (R72), so only framing and the two literals can fail. -/
inductive Reject where
  /-- Fewer than 14 bytes where the header stands (R91). -/
  | truncatedHeader
  /-- The first four bytes are not "qoif" (R91). -/
  | badMagic
  /-- Fewer bytes than the chunk's tag requires (R165, R167, R168); also no byte at all. -/
  | truncatedChunk
  /-- The trailer is not the end marker (R171). -/
  | malformedEndMarker
deriving DecidableEq, Repr

/-- The magic, "qoif" in ASCII (R61). -/
def magic : List Byte := [0x71, 0x6F, 0x69, 0x66]

/-- The end marker (R62). -/
def endMarkerBytes : List Byte := [0x00, 0x00, 0x00, 0x00, 0x00, 0x00, 0x00, 0x01]

/-- `unbe32` (R7). -/
def unbe32 (b0 b1 b2 b3 : Byte) : BitVec 32 := b0 ++ b1 ++ b2 ++ b3

/-- `be32` (R7). -/
def be32 (v : BitVec 32) : List Byte :=
  [v.extractLsb' 24 8, v.extractLsb' 16 8, v.extractLsb' 8 8, v.extractLsb' 0 8]

/-- `bias_dec(f, lo) = f + lo` (R113). -/
def biasDec {n : Nat} (f : BitVec n) (lo : Int) : Int := (f.toNat : Int) + lo

/-- `bias_enc(v, lo) = v - lo`, as a field of `n` bits (R113). -/
def biasEnc (n : Nat) (v lo : Int) : BitVec n := BitVec.ofInt n (v - lo)

/-- The header's bytes: the length first, then the magic, then the fields (R91, R93). -/
def decodeHeader : List Byte → Except Reject (ImageConfig × List Byte)
  | m0 :: m1 :: m2 :: m3 :: w0 :: w1 :: w2 :: w3 :: h0 :: h1 :: h2 :: h3 :: c :: cs :: rest =>
    if [m0, m1, m2, m3] = magic then
      .ok (⟨unbe32 w0 w1 w2 w3, unbe32 h0 h1 h2 h3, c, cs⟩, rest)
    else .error .badMagic
  | _ => .error .truncatedHeader

/-- The literal `RGB` after its tag byte (R69). -/
def decodeRgb : List Byte → Except Reject (Instr × List Byte)
  | r :: g :: b :: rest => .ok (.rgb r g b, rest)
  | _ => .error .truncatedChunk

/-- The literal `RGBA` after its tag byte (R70). -/
def decodeRgba : List Byte → Except Reject (Instr × List Byte)
  | r :: g :: b :: a :: rest => .ok (.rgba r g b a, rest)
  | _ => .error .truncatedChunk

/-- `DIFF` from its one byte `01rrggbb` (R66). -/
def decodeDiff (t : Byte) : Instr :=
  .diff (biasDec (t.extractLsb' 4 2) (-2)) (biasDec (t.extractLsb' 2 2) (-2)) (biasDec (t.extractLsb' 0 2) (-2))

/-- `LUMA` from its first byte `10gggggg` and its second `rrrrbbbb` (R67). -/
def decodeLuma (t : Byte) : List Byte → Except Reject (Instr × List Byte)
  | u :: rest =>
    .ok (.luma (biasDec (t.extractLsb' 0 6) (-32)) (biasDec (u.extractLsb' 4 4) (-8)) (biasDec (u.extractLsb' 0 4) (-8)), rest)
  | _ => .error .truncatedChunk

/-- One chunk, selected by its first byte in the order of R63. -/
def decodeChunk : List Byte → Except Reject (Instr × List Byte)
  | [] => .error .truncatedChunk
  | t :: rest =>
    if t = 0xFE then decodeRgb rest
    else if t = 0xFF then decodeRgba rest
    else if t.extractLsb' 6 2 = 0b00 then .ok (.index (t.extractLsb' 0 6), rest)
    else if t.extractLsb' 6 2 = 0b01 then .ok (decodeDiff t, rest)
    else if t.extractLsb' 6 2 = 0b10 then decodeLuma t rest
    else .ok (.rle ((t.extractLsb' 0 6).toNat + 1), rest)

/-- The trailer: eight bytes compared as a whole, never dispatched by the first (R62, R171). -/
def decodeTrailer (bs : List Byte) : Except Reject (Instr × List Byte) :=
  if bs.take Config.endLen = endMarkerBytes then .ok (.endMarker, bs.drop Config.endLen)
  else .error .malformedEndMarker

/-- The decoder: the instruction at the front of the bytes, with the bytes after it. -/
def decode : Frame → List Byte → Except Reject (Instr × List Byte)
  | .start, bs => (decodeHeader bs).map fun (cfg, rest) => (.header cfg, rest)
  | .chunk, bs => decodeChunk bs
  | .trailer, bs => decodeTrailer bs

/-- Where an instruction stands in a stream (R60). -/
def frameOf : Instr → Frame
  | .rgb _ _ _ => .chunk
  | .rgba _ _ _ _ => .chunk
  | .index _ => .chunk
  | .diff _ _ _ => .chunk
  | .luma _ _ _ => .chunk
  | .rle _ => .chunk
  | .header _ => .start
  | .endMarker => .trailer

/-- The length in bytes (R61, R62, R64). -/
def lengthOf : Instr → Nat
  | .rgb _ _ _ => 4
  | .rgba _ _ _ _ => 5
  | .index _ => 1
  | .diff _ _ _ => 1
  | .luma _ _ _ => 2
  | .rle _ => 1
  | .header _ => Config.headerLen
  | .endMarker => Config.endLen

/-- The encoder: the bytes of an instruction (R61, R62, R65 to R70). -/
def encode : Instr → List Byte
  | .rgb r g b => [0xFE, r, g, b]
  | .rgba r g b a => [0xFF, r, g, b, a]
  | .index slot => [(0b00 : BitVec 2) ++ slot]
  | .diff dr dg db => [(0b01 : BitVec 2) ++ biasEnc 2 dr (-2) ++ biasEnc 2 dg (-2) ++ biasEnc 2 db (-2)]
  | .luma dg drg dbg => [(0b10 : BitVec 2) ++ biasEnc 6 dg (-32), biasEnc 4 drg (-8) ++ biasEnc 4 dbg (-8)]
  | .rle run => [(0b11 : BitVec 2) ++ biasEnc 6 run 1]
  | .header cfg => magic ++ be32 cfg.width ++ be32 cfg.height ++ [cfg.channels] ++ [cfg.colorspace]
  | .endMarker => endMarkerBytes

/-- The low `n` bytes of a number, the least significant first: the host's numbering of an instruction's bits. -/
def leBytes : Nat → Nat → List Byte
  | 0, _ => []
  | n + 1, w => BitVec.ofNat 8 w :: leBytes n (w / 256)

/-- The value the table gives the magic, read big-endian (the note of the row HEADER). -/
def magicWord : Nat := 0x716F6966

/-- In which frame the host's numbered word stands. The rows differ in length: only HEADER has 14 bytes and only END
has 8; a word of four bytes that holds the magic is the fixed part of HEADER (log 10). -/
def tableFrame (nbits w : Nat) : Frame :=
  if nbits = 64 then .trailer
  else if 32 ≤ nbits ∧ (w % 2 ^ 32 = magicWord ∨ leBytes 4 w = magic) then .start
  else .chunk

/-- The bytes of the host's numbered word as they lie in a stream, zeros after them up to the longest record of the
frame. DEDUCED (log 10): the table gives the match of HEADER and of END as big-endian values (its notes; R46a), so a word that
is such a value is laid out big-endian; any other word has its first byte in bits 7..0. -/
def tableBytes (nbits w : Nat) : List Byte :=
  match tableFrame nbits w with
  | .trailer => if w = 1 then endMarkerBytes else leBytes Config.endLen w
  | .start => if w % 2 ^ 32 = magicWord then magic ++ leBytes 10 (w / 2 ^ 32) else leBytes Config.headerLen w
  | .chunk => leBytes 5 w

/-- What the decoder reads from an instruction whose bits are `w`, numbered as spec/opcode_table.json numbers them. -/
def decodeTableWord (nbits w : Nat) : Option Instr :=
  match decode (tableFrame nbits w) (tableBytes nbits w) with
  | .ok (i, _) => some i
  | .error _ => none

end Sys2Proof
end

