-- ==== Sys2Proof/Machine/State.lean ====
section
/-! DEFINITION. The state of the block as plain data: the records of `HDR`, `ENC` and `DEC` (spec/10_state.md R24, R25, R26),
the host's coming events, the reasons a step can stop, and the state after reset (spec/70_reset_and_hazards.md R220). -/

namespace Sys2Proof.Machine

/-- `PHASE` (R17). -/
inductive Phase where
  | idle
  | busy
  | done
  | error
deriving DecidableEq, Repr, Inhabited

/-- The eight error kinds, in the source's order (R190). -/
inductive ErrKind where
  | invalidDimension
  | invalidChannelCount
  | invalidColorspace
  | badMagic
  | truncatedHeader
  | unexpectedEndOfStream
  | malformedEndMarker
  | pixelCountMismatch
deriving DecidableEq, Repr, Inhabited

/-- The running-index cache: 64 pixel registers (R12). -/
abbrev Cache := Vector Pixel 64

/-- A byte-addressed memory: cells in strictly rising order of address; an address that is not listed holds no value (R22). -/
abbrev Memory := List Host.Cell

/-- The `HDR` record (R26). `voids` is the model's own: which free value the next void output takes (log 5). -/
structure Hdr where
  phase : Phase
  err : Option ErrKind
  result : HdrResult
  voids : Nat
deriving DecidableEq, Repr

/-- The `ENC` record (R24) with the raw pixel buffer of the operation (R23, R40). `voids` is the model's own (log 5). -/
structure Enc where
  phase : Phase
  err : Option ErrKind
  cfg : ImageConfig
  pixels : List Byte
  cache : Cache
  prev : Pixel
  run : BitVec 6
  count : Nat
  out : List Byte
  voids : Nat
deriving DecidableEq, Repr

/-- The `DEC` record (R25) with the input stream of the operation (R23, R40). `len` is the register `L` (R20).
`voids` is the model's own (log 5). -/
structure Dec where
  phase : Phase
  err : Option ErrKind
  cfg : ImageConfig
  bytes : List Byte
  len : Nat
  pos : Nat
  cache : Cache
  prev : Pixel
  run : BitVec 6
  count : Nat
  outbuf : Memory
  voids : Nat
deriving DecidableEq, Repr

/-- What the outside does next (R30, R31, R32, R220), or which unit is given the next step (log 1). -/
inductive Event where
  | startEncode (cfg : ImageConfig) (pixels : List Byte)
  | startDecode (bytes : List Byte)
  | hdrEnc (cfg : ImageConfig)
  | hdrDec (bytes : List Byte)
  | reset (u : UnitId)
  | run (u : UnitId)
deriving DecidableEq, Repr

/-- The whole block: one instance of each unit (R10; log 2), and the host's coming events, the model's own field (log 1). -/
structure State where
  hdr : Hdr
  enc : Enc
  dec : Dec
  agenda : List Event
deriving DecidableEq, Repr

/-- Why the machine stops. Each names a situation that the spec gives no step for and that the invariants of R27 rule
out; none is one of the eight error kinds, which are next states (R192). All are safe (log 7). -/
inductive Fault where
  /-- Raised by the six chunk meanings away from a chunk step, that is unless `PHASE = BUSY` and `pos < L - 8` (R162). Safe. -/
  | chunkOutsideRegion
  /-- Raised by the meaning of `HEADER` while `PHASE = BUSY`: the start step does not run then (R31). Safe. -/
  | headerInsideOperation
  /-- Raised by the meaning of `END` unless `PHASE = BUSY` and `pos = L - 8` (R171). Safe. -/
  | endOutsideTrailer
  /-- Raised by the step of a BUSY decoder whose `pos` is past `L - 8` (R27). Safe. -/
  | cursorPastRegion
  /-- Raised by the step of a BUSY encoder whose `count` is past `N` (R27). Safe. -/
  | countPastImage
  /-- Raised by `PixRead` and `PixWrite` outside the buffer, or with `CHANNELS` not 3 or 4 (R42, R43). Safe. -/
  | pixelOutsideBuffer
deriving DecidableEq, Repr

/-- Why the machine refuses an instruction. -/
inductive Refusal where
  /-- Raised by `exec`'s arm of an instruction that has no meaning yet; no arm does now. Safe. -/
  | notModelled (mnemonic : String)
deriving DecidableEq, Repr

/-- The configuration registers after reset: all 0 (R19, R24, R25). -/
def configReset : ImageConfig := ⟨0, 0, 0, 0⟩

/-- The cache after reset and at the start of every operation (R12, R24). -/
def Cache.init : Cache := Vector.replicate 64 Config.cacheInit

/-- `HDR` after reset (R26, R220). -/
def Hdr.reset : Hdr := { phase := .idle, err := none, result := .empty, voids := 0 }

/-- `ENC` after reset (R24, column "after reset"); `pixels` and `voids`: DESIGN CHOICE, log 12. -/
def Enc.reset : Enc :=
  { phase := .idle, err := none, cfg := configReset, pixels := [], cache := Cache.init, prev := Config.prevInit,
    run := 0, count := 0, out := [], voids := 0 }

/-- `DEC` after reset (R25, column "after reset"); `bytes` and `voids`: DESIGN CHOICE, log 12. -/
def Dec.reset : Dec :=
  { phase := .idle, err := none, cfg := configReset, bytes := [], len := 0, pos := 0, cache := Cache.init,
    prev := Config.prevInit, run := 0, count := 0, outbuf := [], voids := 0 }

/-- The machine right after reset: every unit waits for a start command (R220). The empty agenda: DESIGN CHOICE, log 12. -/
def State.reset : State := { hdr := Hdr.reset, enc := Enc.reset, dec := Dec.reset, agenda := [] }

end Sys2Proof.Machine
end

