-- ==== Sys2Proof/Machine/Operands.lean ====
section
/-! DEFINITION. The pixel arithmetic both directions share and the forms a pixel takes as an operand
(spec/41_pixel_arith_cache.md R110 to R120). Components wrap mod 256 and never trap (R122). -/

namespace Sys2Proof.Machine

/-- `wrap8(x) = x mod 256` (R7). -/
def wrap8 (x : Int) : Byte := BitVec.ofInt 8 x

/-- `s8(x)`: the signed reading of `wrap8(x)` (R7). -/
def s8 (x : Int) : Int := (wrap8 x).toInt

/-- The exact sum under the slot hash (R110: "The sum is formed exactly (no wrap)"). -/
def hashSum (p : Pixel) : Nat := p.r.toNat * 3 + p.g.toNat * 5 + p.b.toNat * 7 + p.a.toNat * 11

/-- `hash(p)`: a slot number (R110). -/
def slotHash (p : Pixel) : BitVec 6 := BitVec.ofNat 6 (hashSum p)

/-- One channel's delta: the difference of two unsigned bytes, wrapped and read as signed (R111). -/
def delta (x y : Byte) : Int := s8 ((x.toNat : Int) - (y.toNat : Int))

/-- The deltas of a pixel against `prev` (R111) and its luma differences (R112). -/
structure Deltas where
  dr : Int
  dg : Int
  db : Int
  drg : Int
  dbg : Int
deriving DecidableEq, Repr

/-- `dr`, `dg`, `db` (R111); `drg`, `dbg` (R112). -/
def deltasOf (p prev : Pixel) : Deltas :=
  let dr := delta p.r prev.r
  let dg := delta p.g prev.g
  let db := delta p.b prev.b
  { dr, dg, db, drg := s8 (dr - dg), dbg := s8 (db - dg) }

/-- `ApplyDiff` (R119): the deltas added to `prev`, wrapping per channel, alpha kept. -/
def applyDiff (prev : Pixel) (dr dg db : Int) : Pixel :=
  ⟨wrap8 (prev.r.toNat + dr), wrap8 (prev.g.toNat + dg), wrap8 (prev.b.toNat + db), prev.a⟩

/-- `ApplyLuma` (R120): the sums formed exactly and wrapped once, alpha kept. -/
def applyLuma (prev : Pixel) (dg drg dbg : Int) : Pixel :=
  ⟨wrap8 (prev.r.toNat + dg + drg), wrap8 (prev.g.toNat + dg), wrap8 (prev.b.toNat + dg + dbg), prev.a⟩

/-- What the cache holds in a slot (R12). -/
def Cache.read (c : Cache) (slot : BitVec 6) : Pixel := c.get ⟨slot.toNat, slot.isLt⟩

/-- A register-file write `cache[slot] <- p` (R7, R12). -/
def Cache.write (c : Cache) (slot : BitVec 6) (p : Pixel) : Cache := c.set slot.toNat p slot.isLt

/-- `CacheUpdate(p)`: `cache[hash(p)] <- p` (R118). -/
def Cache.update (c : Cache) (p : Pixel) : Cache := Cache.write c (slotHash p) p

/-- The bytes of a pixel in a buffer of `C` channels: R, G, B and, for 4 channels, A (R41, R43, R170). -/
def pixelBytes (channels : Byte) (p : Pixel) : List Byte :=
  if channels = 4 then [p.r, p.g, p.b, p.a] else [p.r, p.g, p.b]

end Sys2Proof.Machine
end

