-- ==== Sys2Proof/Machine/Flags.lean ====
section
/-! DEFINITION. The block has no flags (spec/10_state.md R29): what stands here is all that is tested or read as a
condition, the two range tests and the cache test (spec/41_pixel_arith_cache.md R115, R116, R117), and the numbers
of the status registers `PHASE` (R17) and `ERR` (spec/60_exceptions.md R190). -/

namespace Sys2Proof.Machine

/-- `DIFF_OK(p, prev)` (R115). -/
def diffOk (p prev : Pixel) : Bool :=
  let d := deltasOf p prev
  decide (p.a = prev.a ∧ (-2 ≤ d.dr ∧ d.dr ≤ 1) ∧ (-2 ≤ d.dg ∧ d.dg ≤ 1) ∧ (-2 ≤ d.db ∧ d.db ≤ 1))

/-- `LUMA_OK(p, prev)` (R116). -/
def lumaOk (p prev : Pixel) : Bool :=
  let d := deltasOf p prev
  decide (p.a = prev.a ∧ (-32 ≤ d.dg ∧ d.dg ≤ 31) ∧ (-8 ≤ d.drg ∧ d.drg ≤ 7) ∧ (-8 ≤ d.dbg ∧ d.dbg ≤ 7))

/-- `CacheHit(p)`: the slot holds exactly this pixel, all four components compared (R117, R225). -/
def cacheHit (c : Cache) (p : Pixel) : Bool := decide (Cache.read c (slotHash p) = p)

/-- The number of a `PHASE` value (R17). -/
def phaseCode : Phase → BitVec 2
  | .idle => 0
  | .busy => 1
  | .done => 2
  | .error => 3

/-- The code of an error kind (R190). -/
def errKindCode : ErrKind → BitVec 4
  | .invalidDimension => 1
  | .invalidChannelCount => 2
  | .invalidColorspace => 3
  | .badMagic => 4
  | .truncatedHeader => 5
  | .unexpectedEndOfStream => 6
  | .malformedEndMarker => 7
  | .pixelCountMismatch => 8

/-- The content of the register `ERR`: 0 means none (R18). -/
def errCode : Option ErrKind → BitVec 4
  | none => 0
  | some k => errKindCode k

end Sys2Proof.Machine
end

