-- ==== Sys2Proof/Machine/Ops.lean ====
section
/-! DEFINITION. The named operations over memory and registers: the output memory, the access primitives of spec/20_memory.md
(R42 to R45), the header checks (spec/40_header.md R92), taking an error (spec/60_exceptions.md R192), and the common part
of the decoder's chunk step (spec/43_decoder.md R162, R169). -/

namespace Sys2Proof.Machine

/-! The output memory (R22, R40) -/

/-- The canonical form: addresses strictly rising. An unlisted address holds no value, so any listed byte differs from it. -/
abbrev Memory.wf (m : Memory) : Prop := (m.map Prod.fst).Pairwise (· < ·)

/-- What an address holds; nothing where nothing has been written (R22, U7). -/
def Memory.read : Memory → Nat → Option Byte
  | [], _ => none
  | (k, v) :: m, a => if a = k then some v else Memory.read m a

/-- Write one byte, keeping the cells in order. -/
def Memory.write : Memory → Nat → Byte → Memory
  | [], a, x => [(a, x)]
  | (k, v) :: m, a, x =>
    if a < k then (a, x) :: (k, v) :: m
    else if a = k then (a, x) :: m
    else (k, v) :: Memory.write m a x

/-- Write bytes at ascending addresses from `a`. -/
def Memory.writeBytes : Memory → Nat → List Byte → Memory
  | m, _, [] => m
  | m, a, x :: xs => Memory.writeBytes (Memory.write m a x) (a + 1) xs

/-- The bytes at `a`, `a + 1`, ..., `n` of them; nothing if one of them holds no value. -/
def Memory.readBytes (m : Memory) (a : Nat) : Nat → Option (List Byte)
  | 0 => some []
  | n + 1 => (Memory.read m a).bind fun x => (Memory.readBytes m (a + 1) n).map fun xs => x :: xs

/-- A memory that holds exactly these bytes from address 0. -/
def Memory.ofBytes (bs : List Byte) : Memory := Memory.writeBytes [] 0 bs

/-! The configuration -/

/-- `N = width * height`, an exact natural (R6). -/
def pixelCount (cfg : ImageConfig) : Nat := cfg.width.toNat * cfg.height.toNat

/-- `N * CHANNELS`: the length of a raw pixel buffer (R41). -/
def bufferLength (cfg : ImageConfig) : Nat := pixelCount cfg * cfg.channels.toNat

/-- The header checks in their order (R92, R93, R193): dimension, channel count, colorspace. -/
def configError (cfg : ImageConfig) : Option ErrKind :=
  if cfg.width = 0 ∨ cfg.height = 0 then some .invalidDimension
  else if cfg.channels ≠ 3 ∧ cfg.channels ≠ 4 then some .invalidChannelCount
  else if cfg.colorspace ≠ 0 ∧ cfg.colorspace ≠ 1 then some .invalidColorspace
  else none

/-- The error kind a decoder's rejection raises (R91, R165, R167, R168, R171). -/
def rejectKind : Reject → ErrKind
  | .truncatedHeader => .truncatedHeader
  | .badMagic => .badMagic
  | .truncatedChunk => .unexpectedEndOfStream
  | .malformedEndMarker => .malformedEndMarker

/-- `HDR_ENC` (R90). -/
def hdrEnc (cfg : ImageConfig) : Except ErrKind (List Byte) :=
  match configError cfg with
  | some k => .error k
  | none => .ok (encode (.header cfg))

/-- `HDR_DEC` (R91). -/
def hdrDec (bytes : List Byte) : Except ErrKind ImageConfig :=
  match decodeHeader bytes with
  | .error r => .error (rejectKind r)
  | .ok (cfg, _) =>
    match configError cfg with
    | some k => .error k
    | none => .ok cfg

/-! Taking an error (R192) and its return (R195): the next start command clears `ERR` -/

/-- `raise k` in `HDR`: the kind, the phase; the result is void (R196). -/
def Hdr.raise (h : Hdr) (k : ErrKind) : Hdr :=
  { h with err := some k, phase := .error, result := Config.voidResult h.voids, voids := h.voids + 1 }

/-- `raise k` in `ENC`: the kind, the phase; `out` is void, every other register keeps what it held (R192, R196). -/
def Enc.raise (e : Enc) (k : ErrKind) : Enc :=
  { e with err := some k, phase := .error, out := Config.voidBytes .enc e.voids, voids := e.voids + 1 }

/-- `raise k` in `DEC`: the kind, the phase; `outbuf` and the configuration are void, every other register keeps what
it held (R192, R196). -/
def Dec.raise (d : Dec) (k : ErrKind) : Dec :=
  { d with
    err := some k, phase := .error, cfg := Config.voidConfig .dec d.voids,
    outbuf := Memory.ofBytes (Config.voidBytes .dec d.voids), voids := d.voids + 1 }

/-- `raise k` in the decoder of the block. -/
def State.raiseDec (s : State) (k : ErrKind) : State := { s with dec := s.dec.raise k }

/-! Pixel accesses -/

/-- The accesses that exist: pixel `i` of an image with 3 or 4 channels, `i < N` (R42, R43). -/
abbrev pixelExists (cfg : ImageConfig) (i : Nat) : Prop := i < pixelCount cfg ∧ (cfg.channels = 3 ∨ cfg.channels = 4)

/-- The pixel at the front of these bytes; with 3 channels alpha is 255 (R42). -/
def pixelOf (channels : Byte) : List Byte → Option Pixel
  | r :: g :: b :: rest =>
    if channels = 4 then
      match rest with
      | a :: _ => some ⟨r, g, b, a⟩
      | [] => none
    else some ⟨r, g, b, 255⟩
  | _ => none

/-- `PixRead(i)` (R42). -/
def Enc.pixRead (e : Enc) (i : Nat) : Option Pixel :=
  if pixelExists e.cfg i then pixelOf e.cfg.channels (e.pixels.drop (i * e.cfg.channels.toNat)) else none

/-- `PixWrite(i, p)` (R43). -/
def Dec.pixWrite (d : Dec) (i : Nat) (p : Pixel) : Option Dec :=
  if pixelExists d.cfg i then
    some { d with outbuf := Memory.writeBytes d.outbuf (i * d.cfg.channels.toNat) (pixelBytes d.cfg.channels p) }
  else none

/-- `Emit(s)` (R45) of one instruction's bytes. -/
def Enc.emit (e : Enc) (i : Instr) : Enc := { e with out := e.out ++ encode i }

/-! The decoder's step -/

/-- The bytes of the chunk region from `pos` on: offsets `pos .. L-9` (R161). -/
def Dec.region (d : Dec) : List Byte := (d.bytes.take (d.len - Config.endLen)).drop d.pos

/-- The last 8 bytes of the stream (R161). -/
def Dec.trailer (d : Dec) : List Byte := d.bytes.drop (d.len - Config.endLen)

/-- `rem = (L - 8) - pos` (R161, R162). -/
def Dec.remaining (d : Dec) : Nat := (d.len - Config.endLen) - d.pos

/-- When a chunk step is performed: `PHASE = BUSY` and `pos < L - 8` (R162). -/
abbrev Dec.inRegion (d : Dec) : Prop := d.phase = .busy ∧ d.pos + Config.endLen < d.len

/-- When the finish step is performed: `PHASE = BUSY` and `pos = L - 8` (R171). -/
abbrev Dec.atTrailer (d : Dec) : Prop := d.phase = .busy ∧ d.pos + Config.endLen = d.len

/-- The checks every chunk begins with, in the order of R162 and R194 (the image complete, then the chunk's length),
and then the chunk's own effect. -/
def chunkStep (len : Nat) (s : State) (effect : Host.Outcome State Fault Refusal) : Host.Outcome State Fault Refusal :=
  if s.dec.inRegion then
    if s.dec.count = pixelCount s.dec.cfg then .next (s.raiseDec .pixelCountMismatch)
    else if s.dec.remaining < len then .next (s.raiseDec .unexpectedEndOfStream)
    else effect
  else .fault .chunkOutsideRegion

/-- The common update of a chunk that yields one pixel (R169): write the pixel at `count`, set `prev`, set `cache` to the
given one, advance both cursors. -/
def putPixel (len : Nat) (s : State) (p : Pixel) (cache : Cache) : Host.Outcome State Fault Refusal :=
  match s.dec.pixWrite s.dec.count p with
  | none => .fault .pixelOutsideBuffer
  | some d => .next { s with dec := { d with cache := cache, prev := p, count := d.count + 1, pos := d.pos + len } }

/-- A chunk whose pixel goes into the cache: `DIFF`, `LUMA`, `RGB`, `RGBA` (R118, R169). -/
def putFreshPixel (len : Nat) (s : State) (p : Pixel) : Host.Outcome State Fault Refusal :=
  putPixel len s p (Cache.update s.dec.cache p)

/-- The countdown of an `RLE` chunk (R166): `prev` written at `count`, `count` up, `run` down, until `run` is 0. -/
def Dec.writeRun : Nat → Dec → Option Dec
  | 0, d => some d
  | n + 1, d =>
    match d.pixWrite d.count d.prev with
    | none => none
    | some d' => Dec.writeRun n { d' with count := d'.count + 1, run := BitVec.ofNat 6 n }

/-- The decoder's start step after the header has been read (R161, R221). -/
def Dec.begin (d : Dec) (cfg : ImageConfig) : Dec :=
  { d with
    cfg := cfg, cache := Cache.init, prev := Config.prevInit, run := 0, count := 0, pos := Config.headerLen,
    outbuf := [], phase := .busy }

/-- The decoder's finish step (R171): the count first, then the marker. -/
def finishStep (s : State) (markerOk : Bool) : Host.Outcome State Fault Refusal :=
  if s.dec.atTrailer then
    if s.dec.count ≠ pixelCount s.dec.cfg then .next (s.raiseDec .unexpectedEndOfStream)
    else if markerOk then .next { s with dec := { s.dec with phase := .done } }
    else .next (s.raiseDec .malformedEndMarker)
  else .fault .endOutsideTrailer

end Sys2Proof.Machine
end

