-- ==== Sys2Proof/Machine/Chunks.lean ====
section
/-! DEFINITION. The meanings of the six chunk types, as the decoder executes them (spec/43_decoder.md R163 to R168). -/

namespace Sys2Proof.Machine

/-- `RGB` (R167): the components from the chunk, the alpha of `prev`. -/
def execRgb (r g b : Byte) (s : State) : Host.Outcome State Fault Refusal :=
  chunkStep 4 s (putFreshPixel 4 s ⟨r, g, b, s.dec.prev.a⟩)

/-- `RGBA` (R168): the four components from the chunk, whatever `CHANNELS` is. -/
def execRgba (r g b a : Byte) (s : State) : Host.Outcome State Fault Refusal :=
  chunkStep 5 s (putFreshPixel 5 s ⟨r, g, b, a⟩)

/-- `INDEX` (R163): the pixel a slot holds, whatever it holds; the cache is not written. -/
def execIndex (slot : BitVec 6) (s : State) : Host.Outcome State Fault Refusal :=
  chunkStep 1 s (putPixel 1 s (Cache.read s.dec.cache slot) s.dec.cache)

/-- `DIFF` (R164). -/
def execDiff (dr dg db : Int) (s : State) : Host.Outcome State Fault Refusal :=
  chunkStep 1 s (putFreshPixel 1 s (applyDiff s.dec.prev dr dg db))

/-- `LUMA` (R165). -/
def execLuma (dg drg dbg : Int) (s : State) : Host.Outcome State Fault Refusal :=
  chunkStep 2 s (putFreshPixel 2 s (applyLuma s.dec.prev dg drg dbg))

/-- `RLE` (R166): no pixel is written if the run would pass `N`; `cache` and `prev` are unchanged. -/
def execRle (run : Nat) (s : State) : Host.Outcome State Fault Refusal :=
  chunkStep 1 s <|
    if s.dec.count + run > pixelCount s.dec.cfg then .next (s.raiseDec .pixelCountMismatch)
    else
      match Dec.writeRun run { s.dec with run := BitVec.ofNat 6 run } with
      | none => .fault .pixelOutsideBuffer
      | some d => .next { s with dec := { d with pos := d.pos + 1 } }

end Sys2Proof.Machine
end

