-- ==== Sys2Proof/Machine/Records.lean ====
section
/-! DEFINITION. The meanings of the two fixed-format records: `HEADER`, which the decoder executes in its start step
(spec/43_decoder.md R161, spec/40_header.md R91), and `END`, its finish step (R171). -/

namespace Sys2Proof.Machine

/-- `HEADER` (R91, R161): the field checks, then the length check, then the start of the operation. -/
def execHeader (cfg : ImageConfig) (s : State) : Host.Outcome State Fault Refusal :=
  if s.dec.phase = .busy then .fault .headerInsideOperation
  else
    match configError cfg with
    | some k => .next (s.raiseDec k)
    | none =>
      if s.dec.len < Config.headerLen + Config.endLen then .next (s.raiseDec .unexpectedEndOfStream)
      else .next { s with dec := s.dec.begin cfg }

/-- `END` (R171): the eight bytes have matched. -/
def execEndMarker (s : State) : Host.Outcome State Fault Refusal := finishStep s true

end Sys2Proof.Machine
end

