-- ==== Sys2Proof/Machine/Encoder.lean ====
section
/-! DEFINITION. The pixel stream encoder `ENC` (spec/42_encoder.md R131 to R141): its start step, its pixel step with the
priority `RLE`, `INDEX`, `DIFF`, `LUMA`, literal (R132, R224), and its end step. What it emits are the bytes of
instructions, through the one encoder of Sys2Proof/Decode.lean. -/

namespace Sys2Proof.Machine

/-- The start step (R131); the checks in the order of R193. -/
def Enc.start (e : Enc) (cfg : ImageConfig) (pixels : List Byte) : Enc :=
  let e0 := { e with err := none }
  match hdrEnc cfg with
  | .error k => e0.raise k
  | .ok hdr =>
    if pixels.length ≠ bufferLength cfg then e0.raise .pixelCountMismatch
    else
      { e0 with
        cfg := cfg, pixels := pixels, cache := Cache.init, prev := Config.prevInit, run := 0, count := 0,
        out := hdr, phase := .busy }

/-- Row 1 (R133): the run grows, and is emitted when it reaches 62 or at the last pixel. -/
def Enc.extendRun (e : Enc) (last : Bool) : Enc :=
  let run := e.run + 1
  if run.toNat = Config.runMax ∨ last = true then { e.emit (.rle run.toNat) with run := 0 } else { e with run := run }

/-- Row 2 (R134): a pending run is emitted before the pixel that ends it. -/
def Enc.flushRun (e : Enc) : Enc := if e.run = 0 then e else { e.emit (.rle e.run.toNat) with run := 0 }

/-- Rows 4 to 7 (R136 to R139): the chunk of a pixel that is neither a run nor in the cache. -/
def freshChunk (p prev : Pixel) : Instr :=
  let d := deltasOf p prev
  if diffOk p prev then .diff d.dr d.dg d.db
  else if lumaOk p prev then .luma d.dg d.drg d.dbg
  else if p.a = prev.a then .rgb p.r p.g p.b
  else .rgba p.r p.g p.b p.a

/-- Rows 3 to 7: `INDEX` if the cache holds the pixel (R135), else a fresh chunk and the cache update (R140). -/
def Enc.codePixel (e : Enc) (p : Pixel) : Enc :=
  if cacheHit e.cache p then { e.emit (.index (slotHash p)) with prev := p }
  else { e.emit (freshChunk p e.prev) with cache := Cache.update e.cache p, prev := p }

/-- The pixel step on a pixel already read (R132). -/
def Enc.takePixel (e : Enc) (p : Pixel) : Enc :=
  let last := decide (e.count + 1 = pixelCount e.cfg)
  let e' := if p = e.prev then e.extendRun last else e.flushRun.codePixel p
  { e' with count := e.count + 1 }

/-- The end step (R141). -/
def Enc.finish (e : Enc) : Enc := { e.emit .endMarker with phase := .done }

/-- One step of the encoder: a pixel step while `count < N` (R132), the end step at `count = N` (R141), none otherwise. -/
def encStep (s : State) : Host.Outcome State Fault Refusal :=
  match s.enc.phase with
  | .busy =>
    if s.enc.count < pixelCount s.enc.cfg then
      match s.enc.pixRead s.enc.count with
      | none => .fault .pixelOutsideBuffer
      | some p => .next { s with enc := s.enc.takePixel p }
    else if s.enc.count = pixelCount s.enc.cfg then .next { s with enc := s.enc.finish }
    else .fault .countPastImage
  | .idle => .next s
  | .done => .next s
  | .error => .next s

end Sys2Proof.Machine
end

