-- ==== Sys2Proof/Machine/Sequence.lean ====
section
/-! DEFINITION. How steps follow one another: the decoder fetches, decodes and executes (spec/43_decoder.md R161, R162, R171),
the host's commands are accepted or refused (spec/10_state.md R30 to R32), a reset restores a unit
(spec/70_reset_and_hazards.md R220), and which unit moves (log 1). -/

namespace Sys2Proof.Machine

/-- What the start command latches before the header is read: `ERR <- 0; L <- len(bytes)` (R161). -/
def State.latchStream (s : State) (bytes : List Byte) : State :=
  { s with dec := { s.dec with err := none, bytes := bytes, len := bytes.length } }

/-- The decoder's start step (R161): the header is decoded and executed; a header that does not decode raises. -/
def decStart (bytes : List Byte) (s : State) : Host.Outcome State Fault Refusal :=
  match decode .start bytes with
  | .ok (i, _) => exec i (s.latchStream bytes)
  | .error r => .next ((s.latchStream bytes).raiseDec (rejectKind r))

/-- A chunk cut by the trailer (R162, R194): a complete image is reported before the missing bytes. -/
def cutChunk (s : State) : Host.Outcome State Fault Refusal :=
  if s.dec.count = pixelCount s.dec.cfg then .next (s.raiseDec .pixelCountMismatch)
  else .next (s.raiseDec .unexpectedEndOfStream)

/-- One step of the decoder: a chunk step while `pos < L - 8` (R162), the finish step at `pos = L - 8` (R171). The
trailer is never decoded as a chunk (R230). -/
def decStep (s : State) : Host.Outcome State Fault Refusal :=
  match s.dec.phase with
  | .busy =>
    if s.dec.pos + Config.endLen < s.dec.len then
      match decode .chunk s.dec.region with
      | .ok (i, _) => exec i s
      | .error _ => cutChunk s
    else if s.dec.pos + Config.endLen = s.dec.len then
      match decode .trailer s.dec.trailer with
      | .ok (i, _) => exec i s
      | .error _ => finishStep s false
    else .fault .cursorPastRegion
  | .idle => .next s
  | .done => .next s
  | .error => .next s

/-- `START_DECODE` (R31): refused, with no effect, while `BUSY`. -/
def startDecode (bytes : List Byte) (s : State) : Host.Outcome State Fault Refusal :=
  if s.dec.phase = .busy then .next s else decStart bytes s

/-- `START_ENCODE` (R30): refused, with no effect, while `BUSY`. -/
def startEncode (cfg : ImageConfig) (pixels : List Byte) (s : State) : Host.Outcome State Fault Refusal :=
  if s.enc.phase = .busy then .next s else .next { s with enc := s.enc.start cfg pixels }

/-- `HDR_ENC` as an operation of `HDR`, one step (R32, R90). -/
def Hdr.encodeHeader (h : Hdr) (cfg : ImageConfig) : Hdr :=
  match hdrEnc cfg with
  | .ok bytes => { h with err := none, phase := .done, result := .header bytes }
  | .error k => h.raise k

/-- `HDR_DEC` as an operation of `HDR`, one step (R32, R91). -/
def Hdr.decodeHeader (h : Hdr) (bytes : List Byte) : Hdr :=
  match hdrDec bytes with
  | .ok cfg => { h with err := none, phase := .done, result := .fields cfg }
  | .error k => h.raise k

/-- Hardware reset of one unit (R220). The model's own counter is kept, so that no free value is used twice (log 5). -/
def resetUnit : UnitId → State → State
  | .hdr, s => { s with hdr := { Hdr.reset with voids := s.hdr.voids } }
  | .enc, s => { s with enc := { Enc.reset with voids := s.enc.voids } }
  | .dec, s => { s with dec := { Dec.reset with voids := s.dec.voids } }

/-- A turn of one unit. A unit that is not `BUSY` waits; `HDR` is never `BUSY` between steps (R32). -/
def runUnit : UnitId → State → Host.Outcome State Fault Refusal
  | .hdr, s => .next s
  | .enc, s => encStep s
  | .dec, s => decStep s

/-- What a host event does. -/
def handle : Event → State → Host.Outcome State Fault Refusal
  | .startEncode cfg pixels, s => startEncode cfg pixels s
  | .startDecode bytes, s => startDecode bytes s
  | .hdrEnc cfg, s => .next { s with hdr := s.hdr.encodeHeader cfg }
  | .hdrDec bytes, s => .next { s with hdr := s.hdr.decodeHeader bytes }
  | .reset u, s => .next (resetUnit u s)
  | .run u, s => runUnit u s

/-- Which unit moves when the agenda is empty: a busy decoder first, then the encoder (DESIGN CHOICE, log 1). -/
def defaultUnit (s : State) : UnitId := if s.dec.phase = .busy then .dec else .enc

/-- The configuration that carries a chunk placed by `placeWord`: an image with room for the longest run. -/
def placedConfig : ImageConfig := ⟨62, 1, 4, 0⟩

/-- The host's numbered word placed where the next step fetches (log 11): a chunk at the front of the chunk region of
a stream just started, `END` at the end of a stream whose one pixel is written, `HEADER` at the front of a stream whose
start command comes next. -/
def placeWord (nbits w : Nat) (s : State) : State :=
  let bytes := tableBytes nbits w
  let placed (cfg : ImageConfig) (body : List Byte) : Dec :=
    let stream := encode (.header cfg) ++ body
    { s.dec with err := none, bytes := stream, len := stream.length }.begin cfg
  match tableFrame nbits w with
  | .start =>
    let stream := bytes ++ endMarkerBytes
    { s with dec := { s.dec with phase := .idle }, agenda := .startDecode stream :: s.agenda }
  | .chunk => { s with dec := placed placedConfig (bytes ++ endMarkerBytes), agenda := [] }
  | .trailer =>
    let d := placed ⟨1, 1, 4, 0⟩ (encode (.rle 1) ++ bytes)
    { s with
      dec := { d with pos := Config.headerLen + 1, count := 1, outbuf := Memory.ofBytes [0, 0, 0, 255] }, agenda := [] }

end Sys2Proof.Machine
end

