-- ==== Sys2Proof/Machine/Step.lean ====
section
/-! DEFINITION. The step: the host's next event, or, when it has none, a turn of a unit (log 1); and where a word is placed
for the next step to run it (log 11). -/

namespace Sys2Proof.Machine

/-- One step of the block. -/
def step (s : State) : Host.Outcome State Fault Refusal :=
  match s.agenda with
  | [] => runUnit (defaultUnit s) s
  | e :: rest => handle e { s with agenda := rest }

/-- `s` with the instruction whose bits are `w` placed where the next step fetches. -/
def State.withFetchWord (s : State) (nbits w : Nat) : State := placeWord nbits w s

end Sys2Proof.Machine
end

