-- ==== Sys2Proof/Machine/HostView.lean ====
section
/-! DEFINITION. What the host can see (spec/10_state.md R33): `PHASE` always, the outputs when `DONE`, `ERR` and nothing else
when `ERROR`, nothing but `PHASE` when `BUSY`. The cache, `prev`, `run`, `count` and `pos` are never visible
(spec/93_implementation_defined.md U2). A read has no side effect (spec/20_memory.md R48), so it is a function of the state. -/

namespace Sys2Proof.Machine

/-- What a read of a unit answers, by its phase (R33). -/
inductive View (α : Type) where
  | idle
  | busy
  | done (result : α)
  | error (code : BitVec 4)
deriving DecidableEq, Repr

/-- A decoded image: the configuration and the raw pixel buffer (R33, R41). -/
structure RawImage where
  cfg : ImageConfig
  pixels : List Byte
deriving DecidableEq, Repr

/-- The view that a phase allows. -/
def viewOf {α : Type} (phase : Phase) (err : Option ErrKind) (result : α) : View α :=
  match phase with
  | .idle => .idle
  | .busy => .busy
  | .done => .done result
  | .error => .error (errCode err)

/-- What the host reads of `HDR`: its result (R26, R33). -/
def Hdr.view (h : Hdr) : View HdrResult := viewOf h.phase h.err h.result

/-- What the host reads of `ENC`: the EncodedStream (R21, R33). -/
def Enc.view (e : Enc) : View (List Byte) := viewOf e.phase e.err e.out

/-- The RawImage in `DEC`; nothing if a position of `outbuf` holds no value (R22, U7). -/
def Dec.image (d : Dec) : Option RawImage :=
  (Memory.readBytes d.outbuf 0 (bufferLength d.cfg)).map fun bytes => ⟨d.cfg, bytes⟩

/-- What the host reads of `DEC`: the RawImage (R33). -/
def Dec.view (d : Dec) : View (Option RawImage) := viewOf d.phase d.err d.image

/-- One byte of `outbuf`, as the host reads it: only when `DONE`, and only where a value was written (R33, U7). -/
def Dec.readOut (d : Dec) (offset : Nat) : Option Byte := if d.phase = .done then Memory.read d.outbuf offset else none

/-- The pixel at a column of a row: pixel number `row * WIDTH + column` (R41). -/
def RawImage.pixelAt (img : RawImage) (column row : Nat) : Option Pixel :=
  if column < img.cfg.width.toNat ∧ row < img.cfg.height.toNat then
    pixelOf img.cfg.channels (img.pixels.drop ((row * img.cfg.width.toNat + column) * img.cfg.channels.toNat))
  else none

/-- What the colorspace tag names (R19). No rule of the codec reads it (R8). -/
inductive Colorspace where
  | srgbWithLinearAlpha
  | allLinear
deriving DecidableEq, Repr

/-- The name of a colorspace value (R19, D10). -/
def colorspaceName (tag : Byte) : Option Colorspace :=
  if tag = 0 then some .srgbWithLinearAlpha else if tag = 1 then some .allLinear else none

end Sys2Proof.Machine
end

