-- ==== Sys2Proof/Machine/Whole.lean ====
section
/-! DEFINITION. The two operations each as one function, transcribed from spec/42_encoder.md R142 and spec/43_decoder.md R172
with the arithmetic of those rules (bytes as sums, not as bit fields). The machine of the other files performs the
same operations step by step; that the two agree is for the statements to say. -/

namespace Sys2Proof.Machine

/-- A byte computed as a number (R7). -/
def byteOf (x : Int) : Byte := wrap8 x

/-- The pixels of a buffer of three channels (R41, R42). -/
def rgbPixels : List Byte → List Pixel
  | r :: g :: b :: rest => ⟨r, g, b, 255⟩ :: rgbPixels rest
  | _ => []

/-- The pixels of a buffer of four channels (R41, R42). -/
def rgbaPixels : List Byte → List Pixel
  | r :: g :: b :: a :: rest => ⟨r, g, b, a⟩ :: rgbaPixels rest
  | _ => []

/-- The pixels of a raw pixel buffer, row-major (R41). -/
def pixelsOf (channels : Byte) (bytes : List Byte) : List Pixel :=
  if channels = 4 then rgbaPixels bytes else rgbPixels bytes

/-- The bytes emitted for a pixel that is neither a run nor in the cache (R142). -/
def freshBytes (p prev : Pixel) : List Byte :=
  if p.a = prev.a then
    let dr := s8 ((p.r.toNat : Int) - prev.r.toNat)
    let dg := s8 ((p.g.toNat : Int) - prev.g.toNat)
    let db := s8 ((p.b.toNat : Int) - prev.b.toNat)
    let drg := s8 (dr - dg)
    let dbg := s8 (db - dg)
    if (-2 ≤ dr ∧ dr ≤ 1) ∧ (-2 ≤ dg ∧ dg ≤ 1) ∧ (-2 ≤ db ∧ db ≤ 1) then
      [byteOf (0x40 + (dr + 2) * 16 + (dg + 2) * 4 + (db + 2))]
    else if (-32 ≤ dg ∧ dg ≤ 31) ∧ (-8 ≤ drg ∧ drg ≤ 7) ∧ (-8 ≤ dbg ∧ dbg ≤ 7) then
      [byteOf (0x80 + dg + 32), byteOf ((drg + 8) * 16 + (dbg + 8))]
    else [0xFE, p.r, p.g, p.b]
  else [0xFF, p.r, p.g, p.b, p.a]

/-- The loop of `ENCODE` over the pixels still to come (R142). -/
def encodeLoop : List Pixel → Cache → Pixel → Nat → List Byte
  | [], _, _, _ => []
  | p :: ps, cache, prev, run =>
    if p = prev then
      if run + 1 = 62 ∨ ps = [] then byteOf (0xC0 + run) :: encodeLoop ps cache prev 0
      else encodeLoop ps cache prev (run + 1)
    else
      (if run > 0 then [byteOf (0xC0 + run - 1)] else []) ++
        if Cache.read cache (slotHash p) = p then byteOf (slotHash p).toNat :: encodeLoop ps cache p 0
        else freshBytes p prev ++ encodeLoop ps (Cache.update cache p) p 0

/-- `ENCODE` (R142). -/
def encodeImage (cfg : ImageConfig) (pixels : List Byte) : Except ErrKind (List Byte) :=
  match hdrEnc cfg with
  | .error k => .error k
  | .ok hdr =>
    if pixels.length ≠ bufferLength cfg then .error .pixelCountMismatch
    else .ok (hdr ++ encodeLoop (pixelsOf cfg.channels pixels) Cache.init Config.prevInit 0 ++ [0, 0, 0, 0, 0, 0, 0, 1])

/-- The loop of `DECODE` over the chunk region still to come (R172): the pixel count and the buffer at its end.
`n` is `N`, `channels` is `c`. -/
def decodeLoop (channels : Byte) (n : Nat) : List Byte → Cache → Pixel → Nat → List Byte → Except ErrKind (Nat × List Byte)
  | [], _, _, count, out => .ok (count, out)
  | t :: rest, cache, prev, count, out =>
    if count = n then .error .pixelCountMismatch
    else if t = 0xFE then
      match rest with
      | r :: g :: b :: rest' =>
        let p : Pixel := ⟨r, g, b, prev.a⟩
        decodeLoop channels n rest' (Cache.update cache p) p (count + 1) (out ++ pixelBytes channels p)
      | _ => .error .unexpectedEndOfStream
    else if t = 0xFF then
      match rest with
      | r :: g :: b :: a :: rest' =>
        let p : Pixel := ⟨r, g, b, a⟩
        decodeLoop channels n rest' (Cache.update cache p) p (count + 1) (out ++ pixelBytes channels p)
      | _ => .error .unexpectedEndOfStream
    else if t.toNat / 64 = 0 then
      let p := Cache.read cache (BitVec.ofNat 6 (t.toNat % 64))
      decodeLoop channels n rest cache p (count + 1) (out ++ pixelBytes channels p)
    else if t.toNat / 64 = 1 then
      let p := applyDiff prev ((t.toNat / 16 % 4 : Nat) - 2) ((t.toNat / 4 % 4 : Nat) - 2) ((t.toNat % 4 : Nat) - 2)
      decodeLoop channels n rest (Cache.update cache p) p (count + 1) (out ++ pixelBytes channels p)
    else if t.toNat / 64 = 2 then
      match rest with
      | u :: rest' =>
        let p := applyLuma prev ((t.toNat % 64 : Nat) - 32) ((u.toNat / 16 : Nat) - 8) ((u.toNat % 16 : Nat) - 8)
        decodeLoop channels n rest' (Cache.update cache p) p (count + 1) (out ++ pixelBytes channels p)
      | _ => .error .unexpectedEndOfStream
    else
      let run := t.toNat % 64 + 1
      if count + run > n then .error .pixelCountMismatch
      else decodeLoop channels n rest cache prev (count + run) (out ++ (List.replicate run (pixelBytes channels prev)).flatten)

/-- `DECODE` (R172). -/
def decodeStream (bytes : List Byte) : Except ErrKind RawImage :=
  match hdrDec bytes with
  | .error k => .error k
  | .ok cfg =>
    if bytes.length < 22 then .error .unexpectedEndOfStream
    else
      match decodeLoop cfg.channels (pixelCount cfg) ((bytes.take (bytes.length - 8)).drop 14) Cache.init Config.prevInit 0 [] with
      | .error k => .error k
      | .ok (count, out) =>
        if count < pixelCount cfg then .error .unexpectedEndOfStream
        else if bytes.drop (bytes.length - 8) ≠ [0, 0, 0, 0, 0, 0, 0, 1] then .error .malformedEndMarker
        else .ok ⟨cfg, out⟩

end Sys2Proof.Machine
end

