-- ==== Sys2Proof/Safety.lean ====
section
/-! DEFINITION. What counts as a safe state: the invariants of spec/10_state.md R27, with what the registers of an operation
in progress and of a finished one hold. -/

namespace Sys2Proof.Machine

/-- `ERR` holds a kind exactly in phase `ERROR` (R17, R18, R192). -/
abbrev errMatchesPhase (phase : Phase) (err : Option ErrKind) : Prop := phase = .error ↔ err.isSome = true

/-- The first `n` bytes of a memory, and no others, hold a value (R22, R27). -/
def exactlyWritten (m : Memory) (n : Nat) : Prop := ∀ a, (Memory.read m a).isSome = true ↔ a < n

/-- `HDR` between steps: never `BUSY` (R32). -/
structure Hdr.Inv (h : Hdr) : Prop where
  notBusy : h.phase ≠ .busy
  err : errMatchesPhase h.phase h.err

/-- `ENC` while `BUSY` (R27), with the alpha of a 3-channel image (R114) and the empty run at the end (R141). -/
structure Enc.BusyInv (e : Enc) : Prop where
  cfgLegal : configError e.cfg = none
  bufferFits : e.pixels.length = bufferLength e.cfg
  runSmall : e.run.toNat ≤ 61
  runCounted : e.run.toNat ≤ e.count
  countBounded : e.count ≤ pixelCount e.cfg
  runPending : ∀ i, e.count - e.run.toNat ≤ i → i < e.count → e.pixRead i = some e.prev
  runFlushed : e.count = pixelCount e.cfg → e.run = 0
  headerOut : Config.headerLen ≤ e.out.length
  alphaOpaque : e.cfg.channels = 3 → e.prev.a = 255

/-- `ENC` between steps. -/
structure Enc.Inv (e : Enc) : Prop where
  err : errMatchesPhase e.phase e.err
  busy : e.phase = .busy → e.BusyInv

/-- `DEC` while `BUSY` (R27). -/
structure Dec.BusyInv (d : Dec) : Prop where
  cfgLegal : configError d.cfg = none
  lengthKnown : d.len = d.bytes.length
  runIdle : d.run = 0
  cursorLow : Config.headerLen ≤ d.pos
  cursorHigh : d.pos + Config.endLen ≤ d.len
  countBounded : d.count ≤ pixelCount d.cfg
  written : exactlyWritten d.outbuf (d.count * d.cfg.channels.toNat)

/-- `DEC` between steps: the output memory in canonical form always; when `DONE` every position is written (R22). -/
structure Dec.Inv (d : Dec) : Prop where
  err : errMatchesPhase d.phase d.err
  memory : Memory.wf d.outbuf
  busy : d.phase = .busy → d.BusyInv
  done : d.phase = .done → exactlyWritten d.outbuf (bufferLength d.cfg)

/-- The whole block between steps. -/
structure State.Inv (s : State) : Prop where
  hdr : s.hdr.Inv
  enc : s.enc.Inv
  dec : s.dec.Inv

/-! `prev` and the cache (R27, "Both"): which chunk wrote `prev` last stands in the bytes of the operation itself, in those
the encoder has emitted and in those the decoder has executed -/

/-- Which instructions write `prev`: every chunk but `RLE` (R13, R169). -/
def writesPrev : Instr → Bool
  | .rgb _ _ _ => true
  | .rgba _ _ _ _ => true
  | .index _ => true
  | .diff _ _ _ => true
  | .luma _ _ _ => true
  | .rle _ => false
  | .header _ => false
  | .endMarker => false

/-- The chunk that wrote `prev` last; none while `prev` has its start value. -/
def prevWriter (chunks : List Instr) : Option Instr := (chunks.filter writesPrev).getLast?

/-- The bytes of chunks one after the other (R60). -/
def chunkBytes (chunks : List Instr) : List Byte := (chunks.map encode).flatten

/-- Well-formed chunks, no record among them. -/
abbrev areChunks (chunks : List Instr) : Prop := ∀ i ∈ chunks, i.WellFormed ∧ frameOf i = .chunk

/-- `cache[hash(prev)] = prev` (R27). -/
abbrev prevCached (cache : Cache) (prev : Pixel) : Prop := Cache.read cache (slotHash prev) = prev

/-- `ENC` while `BUSY` has emitted these chunks; once one of them has written `prev`, the cache holds it (R27), and an
`INDEX` among the writers names its slot (R135). -/
structure Enc.PrevInv (e : Enc) (chunks : List Instr) : Prop where
  wellFormed : areChunks chunks
  emitted : e.out = encode (.header e.cfg) ++ chunkBytes chunks
  start : prevWriter chunks = none → e.prev = Config.prevInit
  cached : ∀ i, prevWriter chunks = some i → prevCached e.cache e.prev
  index : ∀ slot, prevWriter chunks = some (.index slot) → slot = slotHash e.prev

/-- `DEC` while `BUSY` has executed these chunks; if `DIFF`, `LUMA`, `RGB`, `RGBA` or an `INDEX` that names the slot of its
pixel, as an encoder's does, wrote `prev` last, the cache holds it. Not so after another `INDEX` (R27). -/
structure Dec.PrevInv (d : Dec) (chunks : List Instr) : Prop where
  wellFormed : areChunks chunks
  executed : (d.bytes.take d.pos).drop Config.headerLen = chunkBytes chunks
  start : prevWriter chunks = none → d.prev = Config.prevInit
  cached : ∀ i, prevWriter chunks = some i → (∀ slot, i = .index slot → slot = slotHash d.prev) → prevCached d.cache d.prev

/-- The block between steps: each busy unit's bytes are those of chunks that bear out its `prev` and cache. -/
structure State.PrevInv (s : State) : Prop where
  enc : s.enc.phase = .busy → ∃ chunks, s.enc.PrevInv chunks
  dec : s.dec.phase = .busy → ∃ chunks, s.dec.PrevInv chunks

/-! The conditions under which steps run, as the statements name them -/

/-- When a chunk of `len` bytes executes normally (R162 to R168): a chunk step is performed, the image is not complete,
the chunk lies in the region, `CHANNELS` is legal (R43). -/
abbrev Dec.readyFor (d : Dec) (len : Nat) : Prop :=
  d.inRegion ∧ d.count < pixelCount d.cfg ∧ len ≤ d.remaining ∧ (d.cfg.channels = 3 ∨ d.cfg.channels = 4)

/-- The next step is the decoder's, and `rest` is the agenda after it (log 1). -/
abbrev State.decTurn (s : State) (rest : List Event) : Prop :=
  s.agenda = .run .dec :: rest ∨ (s.agenda = [] ∧ rest = [] ∧ s.dec.phase = .busy)

/-- The next step is the encoder's, and `rest` is the agenda after it (log 1). -/
abbrev State.encTurn (s : State) (rest : List Event) : Prop :=
  s.agenda = .run .enc :: rest ∨ (s.agenda = [] ∧ rest = [] ∧ s.dec.phase ≠ .busy)

/-- The next step is a pixel step on the pixel `p` (R132). -/
abbrev State.pixelTurn (s : State) (rest : List Event) (p : Pixel) : Prop :=
  s.encTurn rest ∧ s.enc.phase = .busy ∧ s.enc.pixRead s.enc.count = some p

/-- The byte that flushes a pending run, if there is one (R134). -/
def runFlush (run : BitVec 6) : List Byte := if run = 0 then [] else [BitVec.ofNat 8 (0xC0 + (run.toNat - 1))]

/-- Instructions executed one after the other. -/
def execAll : List Instr → State → Host.Outcome State Fault Refusal
  | [], s => .next s
  | i :: is, s =>
    match exec i s with
    | .next t => execAll is t
    | .fault r => .fault r
    | .refused r => .refused r

end Sys2Proof.Machine
end

