-- ==== Sys2Proof/Certificates/Slice0/Obligations.lean ====
section
/-! DEFINITION. The statements for the provers, from the numbered rules of the spec. `encTurn`, `decTurn` and `pixelTurn`
(Sys2Proof/Safety.lean) say whose step is next; the agenda is the model's own (log 1). -/

open Sys2Proof Sys2Proof.Machine

/-! Encoding -/

/-- Decoding an encoded well-formed instruction, whatever follows it, gives it back with what follows (30_encoding.md). -/
def Obligations.DecodeOfEncode : Prop :=
  ∀ (i : Instr) (rest : List Byte), i.WellFormed → decode (frameOf i) (encode i ++ rest) = .ok (i, rest)

/-- Whatever the decoder answers is a well-formed instruction of that frame whose encoding stood at the front: every word
has one meaning, and no bit of it is lost (30_encoding.md, also for the hand-made chunks of section 4). -/
def Obligations.EncodeOfDecode : Prop :=
  ∀ (f : Frame) (bs rest : List Byte) (i : Instr),
    decode f bs = .ok (i, rest) → i.WellFormed ∧ frameOf i = f ∧ encode i ++ rest = bs

/-- R63: every first byte, with enough bytes after it, selects exactly the chunk type of its range. -/
def Obligations.FirstByteSelectsChunk : Prop :=
  ∀ (t : Byte) (tail : List Byte), 4 ≤ tail.length →
    ∃ (i : Instr) (rest : List Byte), decode .chunk (t :: tail) = .ok (i, rest) ∧
      ((∃ r g b, i = .rgb r g b) ↔ t = 0xFE) ∧
      ((∃ r g b a, i = .rgba r g b a) ↔ t = 0xFF) ∧
      ((∃ slot, i = .index slot) ↔ t.toNat ≤ 0x3F) ∧
      ((∃ dr dg db, i = .diff dr dg db) ↔ 0x40 ≤ t.toNat ∧ t.toNat ≤ 0x7F) ∧
      ((∃ dg drg dbg, i = .luma dg drg dbg) ↔ 0x80 ≤ t.toNat ∧ t.toNat ≤ 0xBF) ∧
      ((∃ run, i = .rle run) ↔ 0xC0 ≤ t.toNat ∧ t.toNat ≤ 0xFD)

/-- Words written out from the spec's encodings and examples (R65 to R70, R61, R62, 95_test_vectors.md T42, T46, T30, T52, T53). -/
def Obligations.SpecWordsDecode : Prop :=
  decode .chunk [0x1F] = .ok (.index 31, []) ∧
  decode .chunk [0x76] = .ok (.diff 1 (-1) 0, []) ∧
  decode .chunk [0x80, 0x0F] = .ok (.luma (-32) (-8) 7, []) ∧
  decode .chunk [0xFD] = .ok (.rle 62, []) ∧
  decode .chunk [0xFE, 0x0A, 0x14, 0x1E] = .ok (.rgb 10 20 30, []) ∧
  decode .chunk [0xFF, 0, 0, 0, 0x80] = .ok (.rgba 0 0 0 128, []) ∧
  decode .start [0x71, 0x6F, 0x69, 0x66, 0, 0, 1, 0, 0, 0, 0, 2, 3, 1] = .ok (.header ⟨256, 2, 3, 1⟩, []) ∧
  decode .trailer [0, 0, 0, 0, 0, 0, 0, 1] = .ok (.endMarker, [])

/-! The header -/

/-- 40_header.md (the spec's own derivation): `HDR_DEC` undoes `HDR_ENC`, `HDR_ENC` undoes `HDR_DEC` on 14 bytes, and
`HDR_ENC` fails exactly outside the legal tuples. -/
def Obligations.HeaderRoundTrip : Prop :=
  (∀ (cfg : ImageConfig) (bytes rest : List Byte), hdrEnc cfg = .ok bytes → hdrDec (bytes ++ rest) = .ok cfg) ∧
  (∀ (cfg : ImageConfig) (bytes : List Byte), bytes.length = 14 → hdrDec bytes = .ok cfg → hdrEnc cfg = .ok bytes) ∧
  (∀ cfg : ImageConfig, (∃ k, hdrEnc cfg = .error k) ↔
    ¬(cfg.width ≠ 0 ∧ cfg.height ≠ 0 ∧ (cfg.channels = 3 ∨ cfg.channels = 4) ∧ (cfg.colorspace = 0 ∨ cfg.colorspace = 1)))

/-- 40_header.md: the command `HDR_ENC` makes its checks in order and answers the 14 bytes. The order and the check of the
colorspace are the spec's decision D11. -/
def Obligations.HdrEncChecksInOrder : Prop :=
  ∀ (s : State) (cfg : ImageConfig) (rest : List Event), s.agenda = .hdrEnc cfg :: rest →
    ∃ t : State, step s = .next t ∧ t.enc = s.enc ∧ t.dec = s.dec ∧ t.agenda = rest ∧
      (if cfg.width = 0 ∨ cfg.height = 0 then t.hdr.phase = .error ∧ t.hdr.err = some .invalidDimension
        else if ¬(cfg.channels = 3 ∨ cfg.channels = 4) then t.hdr.phase = .error ∧ t.hdr.err = some .invalidChannelCount
        else if ¬(cfg.colorspace = 0 ∨ cfg.colorspace = 1) then t.hdr.phase = .error ∧ t.hdr.err = some .invalidColorspace
        else t.hdr.phase = .done ∧ t.hdr.err = none ∧
          t.hdr.result = .header ([0x71, 0x6F, 0x69, 0x66] ++ be32 cfg.width ++ be32 cfg.height ++ [cfg.channels, cfg.colorspace]))

/-- 40_header.md: the command `HDR_DEC` tests the length first, then the fields in the order they lie in the header (D12, D13). -/
def Obligations.HdrDecChecksInOrder : Prop :=
  ∀ (s : State) (bytes : List Byte) (rest : List Event), s.agenda = .hdrDec bytes :: rest →
    ∃ t : State, step s = .next t ∧ t.enc = s.enc ∧ t.dec = s.dec ∧ t.agenda = rest ∧
      (if bytes.length < 14 then t.hdr.phase = .error ∧ t.hdr.err = some .truncatedHeader
        else if bytes.take 4 ≠ [0x71, 0x6F, 0x69, 0x66] then t.hdr.phase = .error ∧ t.hdr.err = some .badMagic
        else
          let width := unbe32 (bytes.getD 4 0) (bytes.getD 5 0) (bytes.getD 6 0) (bytes.getD 7 0)
          let height := unbe32 (bytes.getD 8 0) (bytes.getD 9 0) (bytes.getD 10 0) (bytes.getD 11 0)
          let channels := bytes.getD 12 0
          let colorspace := bytes.getD 13 0
          if width = 0 ∨ height = 0 then t.hdr.phase = .error ∧ t.hdr.err = some .invalidDimension
          else if ¬(channels = 3 ∨ channels = 4) then t.hdr.phase = .error ∧ t.hdr.err = some .invalidChannelCount
          else if ¬(colorspace = 0 ∨ colorspace = 1) then t.hdr.phase = .error ∧ t.hdr.err = some .invalidColorspace
          else t.hdr.phase = .done ∧ t.hdr.err = none ∧ t.hdr.result = .fields ⟨width, height, channels, colorspace⟩)

/-! What the instructions do -/

/-- R163: the operand is `t[5:0]`; `INDEX` writes out the pixel its slot holds, whatever it holds, and sets `prev`; the
cache is not modified. -/
def Obligations.IndexWritesSlotPixel : Prop :=
  (∀ (t : Byte) (rest : List Byte), t.toNat ≤ 0x3F →
    decode .chunk (t :: rest) = .ok (.index (BitVec.ofNat 6 t.toNat), rest)) ∧
  ∀ (slot : BitVec 6) (s : State), s.dec.readyFor 1 →
    exec (.index slot) s = .next { s with dec := { s.dec with
      prev := Cache.read s.dec.cache slot,
      outbuf := Memory.writeBytes s.dec.outbuf (s.dec.count * s.dec.cfg.channels.toNat)
        (pixelBytes s.dec.cfg.channels (Cache.read s.dec.cache slot)),
      count := s.dec.count + 1, pos := s.dec.pos + 1 } }

/-- R164: the operands are `t[5:4] - 2`, `t[3:2] - 2`, `t[1:0] - 2`; `DIFF` adds its deltas to `prev`, wrapping, keeps its
alpha, and writes cache, `prev` and the pixel. -/
def Obligations.DiffAddsDeltas : Prop :=
  (∀ (t : Byte) (rest : List Byte), 0x40 ≤ t.toNat → t.toNat ≤ 0x7F →
    decode .chunk (t :: rest) =
      .ok (.diff ((t.toNat / 16 % 4 : Nat) - 2) ((t.toNat / 4 % 4 : Nat) - 2) ((t.toNat % 4 : Nat) - 2), rest)) ∧
  ∀ (dr dg db : Int) (s : State), s.dec.readyFor 1 →
    let p : Pixel := ⟨BitVec.ofInt 8 (s.dec.prev.r.toNat + dr), BitVec.ofInt 8 (s.dec.prev.g.toNat + dg),
      BitVec.ofInt 8 (s.dec.prev.b.toNat + db), s.dec.prev.a⟩
    exec (.diff dr dg db) s = .next { s with dec := { s.dec with
      cache := Cache.write s.dec.cache (slotHash p) p, prev := p,
      outbuf := Memory.writeBytes s.dec.outbuf (s.dec.count * s.dec.cfg.channels.toNat) (pixelBytes s.dec.cfg.channels p),
      count := s.dec.count + 1, pos := s.dec.pos + 1 } }

/-- R165: the operands are `t[5:0] - 32`, `u[7:4] - 8`, `u[3:0] - 8`; `LUMA` raises `UnexpectedEndOfStream` when its second
byte does not lie in the region, and otherwise adds its deltas to `prev` and writes cache, `prev` and the pixel. -/
def Obligations.LumaAddsDifferences : Prop :=
  (∀ (t u : Byte) (rest : List Byte), 0x80 ≤ t.toNat → t.toNat ≤ 0xBF →
    decode .chunk (t :: u :: rest) =
      .ok (.luma ((t.toNat % 64 : Nat) - 32) ((u.toNat / 16 : Nat) - 8) ((u.toNat % 16 : Nat) - 8), rest)) ∧
  ∀ (dg drg dbg : Int) (s : State),
    (s.dec.inRegion → s.dec.count < pixelCount s.dec.cfg → s.dec.remaining < 2 →
      exec (.luma dg drg dbg) s = .next (s.raiseDec .unexpectedEndOfStream)) ∧
    (s.dec.readyFor 2 →
      let p : Pixel := ⟨BitVec.ofInt 8 (s.dec.prev.r.toNat + dg + drg), BitVec.ofInt 8 (s.dec.prev.g.toNat + dg),
        BitVec.ofInt 8 (s.dec.prev.b.toNat + dg + dbg), s.dec.prev.a⟩
      exec (.luma dg drg dbg) s = .next { s with dec := { s.dec with
        cache := Cache.write s.dec.cache (slotHash p) p, prev := p,
        outbuf := Memory.writeBytes s.dec.outbuf (s.dec.count * s.dec.cfg.channels.toNat) (pixelBytes s.dec.cfg.channels p),
        count := s.dec.count + 1, pos := s.dec.pos + 2 } })

/-- R166: the operand is `t[5:0] + 1`; `RLE` raises `PixelCountMismatch`, before any pixel is written, when the run would pass `N` (D16); otherwise it
writes `prev` once per pixel of the run, leaves every other address, the cache and `prev`, and ends with `run` 0. -/
def Obligations.RleRepeatsPrev : Prop :=
  (∀ (t : Byte) (rest : List Byte), 0xC0 ≤ t.toNat → t.toNat ≤ 0xFD →
    decode .chunk (t :: rest) = .ok (.rle (t.toNat % 64 + 1), rest)) ∧
  ∀ (run : Nat) (s : State), 1 ≤ run → s.dec.readyFor 1 →
    if pixelCount s.dec.cfg < s.dec.count + run then exec (.rle run) s = .next (s.raiseDec .pixelCountMismatch)
    else ∃ out : Memory,
      exec (.rle run) s = .next { s with dec := { s.dec with
        outbuf := out, count := s.dec.count + run, pos := s.dec.pos + 1, run := 0 } } ∧
      (∀ k j, k < run → j < s.dec.cfg.channels.toNat →
        Memory.read out ((s.dec.count + k) * s.dec.cfg.channels.toNat + j) =
          (pixelBytes s.dec.cfg.channels s.dec.prev)[j]?) ∧
      (∀ a, (a < s.dec.count * s.dec.cfg.channels.toNat ∨ (s.dec.count + run) * s.dec.cfg.channels.toNat ≤ a) →
        Memory.read out a = Memory.read s.dec.outbuf a)

/-- R167: `RGB` takes its components from the chunk and its alpha from `prev`; fewer than 4 bytes raise. -/
def Obligations.RgbKeepsAlpha : Prop :=
  (∀ (r g b : Byte) (rest : List Byte), decode .chunk (0xFE :: r :: g :: b :: rest) = .ok (.rgb r g b, rest)) ∧
  ∀ (r g b : Byte) (s : State),
    (s.dec.inRegion → s.dec.count < pixelCount s.dec.cfg → s.dec.remaining < 4 →
      exec (.rgb r g b) s = .next (s.raiseDec .unexpectedEndOfStream)) ∧
    (s.dec.readyFor 4 →
      let p : Pixel := ⟨r, g, b, s.dec.prev.a⟩
      exec (.rgb r g b) s = .next { s with dec := { s.dec with
        cache := Cache.write s.dec.cache (slotHash p) p, prev := p,
        outbuf := Memory.writeBytes s.dec.outbuf (s.dec.count * s.dec.cfg.channels.toNat) (pixelBytes s.dec.cfg.channels p),
        count := s.dec.count + 1, pos := s.dec.pos + 4 } })

/-- R168: `RGBA` takes all four components from the chunk, for 3 channels too (D18); fewer than 5 bytes raise. -/
def Obligations.RgbaTakesAllFour : Prop :=
  (∀ (r g b a : Byte) (rest : List Byte), decode .chunk (0xFF :: r :: g :: b :: a :: rest) = .ok (.rgba r g b a, rest)) ∧
  ∀ (r g b a : Byte) (s : State),
    (s.dec.inRegion → s.dec.count < pixelCount s.dec.cfg → s.dec.remaining < 5 →
      exec (.rgba r g b a) s = .next (s.raiseDec .unexpectedEndOfStream)) ∧
    (s.dec.readyFor 5 →
      let p : Pixel := ⟨r, g, b, a⟩
      exec (.rgba r g b a) s = .next { s with dec := { s.dec with
        cache := Cache.write s.dec.cache (slotHash p) p, prev := p,
        outbuf := Memory.writeBytes s.dec.outbuf (s.dec.count * s.dec.cfg.channels.toNat) (pixelBytes s.dec.cfg.channels p),
        count := s.dec.count + 1, pos := s.dec.pos + 5 } })

/-- 43_decoder.md section 1: a legal `HEADER` on a stream of at least 22 bytes starts the operation. -/
def Obligations.HeaderStartsOperation : Prop :=
  ∀ (cfg : ImageConfig) (s : State), s.dec.phase ≠ .busy → cfg.width ≠ 0 → cfg.height ≠ 0 →
    (cfg.channels = 3 ∨ cfg.channels = 4) → (cfg.colorspace = 0 ∨ cfg.colorspace = 1) → 22 ≤ s.dec.len →
    exec (.header cfg) s = .next { s with dec := { s.dec with
      cfg := cfg, cache := Vector.replicate 64 ⟨0, 0, 0, 0⟩, prev := ⟨0, 0, 0, 255⟩, run := 0, count := 0, pos := 14,
      outbuf := [], phase := .busy } }

/-- 43_decoder.md section 1: the start step. `ERR` is cleared and `L` loaded, the header is checked in its order, then the
length, and the operation begins. The copy of the stream into the state is the model's choice (log 4), and that the copy
and `L` stay when the header is in error its reading (log 17). -/
def Obligations.StartDecodeStep : Prop :=
  ∀ (s : State) (bytes : List Byte) (rest : List Event), s.agenda = .startDecode bytes :: rest → s.dec.phase ≠ .busy →
    ∃ t : State, step s = .next t ∧ t.hdr = s.hdr ∧ t.enc = s.enc ∧ t.agenda = rest ∧
      t.dec.bytes = bytes ∧ t.dec.len = bytes.length ∧
      (match hdrDec bytes with
        | .error k => t.dec.phase = .error ∧ t.dec.err = some k
        | .ok cfg =>
          if bytes.length < 22 then t.dec.phase = .error ∧ t.dec.err = some .unexpectedEndOfStream
          else t.dec.phase = .busy ∧ t.dec.err = none ∧ t.dec.cfg = cfg ∧
            (∀ slot, Cache.read t.dec.cache slot = ⟨0, 0, 0, 0⟩) ∧ t.dec.prev = ⟨0, 0, 0, 255⟩ ∧
            t.dec.run = 0 ∧ t.dec.count = 0 ∧ t.dec.pos = 14 ∧ (∀ a, Memory.read t.dec.outbuf a = none))

/-- 43_decoder.md section 3: the finish step. The count is tested first (D17), then the eight trailing bytes, then the
operation ends. The second clause, that the instruction `END` is the finish step on eight matching bytes, is the model's
reading (log 9): the spec never executes the marker. -/
def Obligations.FinishStepChecks : Prop :=
  (∀ (s : State) (rest : List Event), s.decTurn rest → s.dec.atTrailer → s.dec.len = s.dec.bytes.length →
    let s' : State := { s with agenda := rest }
    if s.dec.count ≠ pixelCount s.dec.cfg then step s = .next (s'.raiseDec .unexpectedEndOfStream)
    else if s.dec.bytes.drop (s.dec.len - 8) ≠ [0, 0, 0, 0, 0, 0, 0, 1] then step s = .next (s'.raiseDec .malformedEndMarker)
    else step s = .next { s' with dec := { s.dec with phase := .done } }) ∧
  (∀ s : State, s.dec.atTrailer → s.dec.count = pixelCount s.dec.cfg →
    exec .endMarker s = .next { s with dec := { s.dec with phase := .done } })

/-- 43_decoder.md section 2, 60_exceptions.md section 2: a chunk that begins when the image is complete raises
`PixelCountMismatch`, whatever its type and its length (D16). -/
def Obligations.CompleteImageRefusesChunk : Prop :=
  ∀ (i : Instr) (s : State), frameOf i = .chunk → s.dec.inRegion → s.dec.count = pixelCount s.dec.cfg →
    exec i s = .next (s.raiseDec .pixelCountMismatch)

/-- 60_exceptions.md section 2: a chunk cut by the trailer raises `UnexpectedEndOfStream`, unless the image is complete. -/
def Obligations.CutChunkRaises : Prop :=
  ∀ (s : State) (rest : List Event) (r : Reject), s.decTurn rest → s.dec.inRegion →
    decode .chunk s.dec.region = .error r →
    step s = .next (State.raiseDec { s with agenda := rest }
      (if s.dec.count = pixelCount s.dec.cfg then .pixelCountMismatch else .unexpectedEndOfStream))

/-- Away from its step an instruction stops by name (log 7): a chunk outside the chunk region, a header during an operation,
an end marker away from the trailer. The stops are the model's own choice. -/
def Obligations.InstructionsStopOutsideTheirStep : Prop :=
  (∀ (i : Instr) (s : State), frameOf i = .chunk → ¬s.dec.inRegion → exec i s = .fault .chunkOutsideRegion) ∧
  (∀ (cfg : ImageConfig) (s : State), s.dec.phase = .busy → exec (.header cfg) s = .fault .headerInsideOperation) ∧
  (∀ s : State, ¬s.dec.atTrailer → exec .endMarker s = .fault .endOutsideTrailer)

/-- A step runs the decoded instruction: in the chunk region, at the trailer, and in the start step, where the stream is
latched first. That the trailer and the header are executed as the instructions `END` and `HEADER` is the model's reading
(log 9); the copy of the input at the start (log 4) and the agenda (log 1) are its choices. -/
def Obligations.StepRunsDecoded : Prop :=
  (∀ (s : State) (as : List Event) (i : Instr) (rest : List Byte), s.decTurn as → s.dec.inRegion →
    decode .chunk s.dec.region = .ok (i, rest) → step s = exec i { s with agenda := as }) ∧
  (∀ (s : State) (as : List Event) (i : Instr) (rest : List Byte), s.decTurn as → s.dec.atTrailer →
    decode .trailer s.dec.trailer = .ok (i, rest) → step s = exec i { s with agenda := as }) ∧
  (∀ (s : State) (as : List Event) (bytes rest : List Byte) (i : Instr), s.agenda = .startDecode bytes :: as →
    s.dec.phase ≠ .busy → decode .start bytes = .ok (i, rest) →
    step s = exec i { s with agenda := as, dec := { s.dec with err := none, bytes := bytes, len := bytes.length } })

/-! Frames -/

/-- What `DIFF`, `LUMA`, `RGB` and `RGBA` leave unchanged: all but the slot of the new pixel, `prev`, the two cursors and
the pixel's bytes. An error instead is that of `raise` (log 5, log 6). -/
def Obligations.FreshChunkFrame : Prop :=
  ∀ (i : Instr) (s t : State),
    ((∃ r g b, i = .rgb r g b) ∨ (∃ r g b a, i = .rgba r g b a) ∨ (∃ dr dg db, i = .diff dr dg db) ∨
      ∃ dg drg dbg, i = .luma dg drg dbg) →
    exec i s = .next t →
    t.hdr = s.hdr ∧ t.enc = s.enc ∧ t.agenda = s.agenda ∧
    ((∃ k, t.dec = s.dec.raise k) ∨
      (t.dec.phase = s.dec.phase ∧ t.dec.err = s.dec.err ∧ t.dec.cfg = s.dec.cfg ∧ t.dec.bytes = s.dec.bytes ∧
        t.dec.len = s.dec.len ∧ t.dec.run = s.dec.run ∧ t.dec.voids = s.dec.voids ∧
        (∀ slot, slot ≠ slotHash t.dec.prev → Cache.read t.dec.cache slot = Cache.read s.dec.cache slot) ∧
        (∀ a, (a < s.dec.count * s.dec.cfg.channels.toNat ∨ (s.dec.count + 1) * s.dec.cfg.channels.toNat ≤ a) →
          Memory.read t.dec.outbuf a = Memory.read s.dec.outbuf a)))

/-- What `INDEX` leaves unchanged: all but `prev`, the two cursors and the pixel's bytes. -/
def Obligations.IndexFrame : Prop :=
  ∀ (slot : BitVec 6) (s t : State), exec (.index slot) s = .next t →
    t.hdr = s.hdr ∧ t.enc = s.enc ∧ t.agenda = s.agenda ∧
    ((∃ k, t.dec = s.dec.raise k) ∨
      (t.dec.phase = s.dec.phase ∧ t.dec.err = s.dec.err ∧ t.dec.cfg = s.dec.cfg ∧ t.dec.bytes = s.dec.bytes ∧
        t.dec.len = s.dec.len ∧ t.dec.run = s.dec.run ∧ t.dec.voids = s.dec.voids ∧ t.dec.cache = s.dec.cache ∧
        (∀ a, (a < s.dec.count * s.dec.cfg.channels.toNat ∨ (s.dec.count + 1) * s.dec.cfg.channels.toNat ≤ a) →
          Memory.read t.dec.outbuf a = Memory.read s.dec.outbuf a)))

/-- What `RLE` leaves unchanged: all but the two cursors, `run` and the bytes of the run's pixels. -/
def Obligations.RleFrame : Prop :=
  ∀ (run : Nat) (s t : State), exec (.rle run) s = .next t →
    t.hdr = s.hdr ∧ t.enc = s.enc ∧ t.agenda = s.agenda ∧
    ((∃ k, t.dec = s.dec.raise k) ∨
      (t.dec.phase = s.dec.phase ∧ t.dec.err = s.dec.err ∧ t.dec.cfg = s.dec.cfg ∧ t.dec.bytes = s.dec.bytes ∧
        t.dec.len = s.dec.len ∧ t.dec.voids = s.dec.voids ∧ t.dec.cache = s.dec.cache ∧ t.dec.prev = s.dec.prev ∧
        (∀ a, (a < s.dec.count * s.dec.cfg.channels.toNat ∨ (s.dec.count + run) * s.dec.cfg.channels.toNat ≤ a) →
          Memory.read t.dec.outbuf a = Memory.read s.dec.outbuf a)))

/-- What the two records leave unchanged. `HEADER` writes the working registers of the decoder and never the stream;
`END` writes the phase alone, and no byte of memory. That the records are executed as instructions, so that the start step
writes `ERR`, the stream and `L` around `HEADER` and not in it, is the model's reading (log 9). -/
def Obligations.RecordFrame : Prop :=
  (∀ (cfg : ImageConfig) (s t : State), exec (.header cfg) s = .next t →
    t.hdr = s.hdr ∧ t.enc = s.enc ∧ t.agenda = s.agenda ∧ t.dec.bytes = s.dec.bytes ∧ t.dec.len = s.dec.len ∧
    ((∃ k, t.dec = s.dec.raise k) ∨ (t.dec.err = s.dec.err ∧ t.dec.voids = s.dec.voids))) ∧
  (∀ s t : State, exec .endMarker s = .next t →
    t.hdr = s.hdr ∧ t.enc = s.enc ∧ t.agenda = s.agenda ∧
    ((∃ k, t.dec = s.dec.raise k) ∨ t.dec = { s.dec with phase := .done }))

/-! Errors, phases, commands -/

/-- 60_exceptions.md section 2: a step that leaves a unit in `ERROR` leaves `cache`, `prev`, `run`, `count` and `pos` as they
were, in a start step that raises too, and if it changed the unit, `ERR` holds a kind. That the registers keep what they
held is the model's reading (log 6): they have no meaning then, and to the host they are any value. -/
def Obligations.ErrorKeepsRegisters : Prop :=
  (∀ s t : State, step s = .next t → t.dec.phase = .error →
    (t.dec ≠ s.dec → ∃ k, t.dec.err = some k) ∧ t.dec.cache = s.dec.cache ∧ t.dec.prev = s.dec.prev ∧
      t.dec.run = s.dec.run ∧ t.dec.count = s.dec.count ∧ t.dec.pos = s.dec.pos) ∧
  (∀ s t : State, step s = .next t → t.enc.phase = .error →
    (t.enc ≠ s.enc → ∃ k, t.enc.err = some k) ∧ t.enc.cache = s.enc.cache ∧ t.enc.prev = s.enc.prev ∧
      t.enc.run = s.enc.run ∧ t.enc.count = s.enc.count)

/-- 60_exceptions.md sections 2 and 3: a unit that is not `BUSY` performs no further step; only a start command or a reset
of that unit changes it. -/
def Obligations.EndedUnitsWait : Prop :=
  (∀ s t : State, step s = .next t → s.dec.phase ≠ .busy → t.dec ≠ s.dec →
    ∃ rest, (∃ bytes, s.agenda = .startDecode bytes :: rest) ∨ s.agenda = .reset .dec :: rest) ∧
  (∀ s t : State, step s = .next t → s.enc.phase ≠ .busy → t.enc ≠ s.enc →
    ∃ rest, (∃ cfg pixels, s.agenda = .startEncode cfg pixels :: rest) ∨ s.agenda = .reset .enc :: rest) ∧
  (∀ s t : State, step s = .next t → t.hdr ≠ s.hdr →
    ∃ rest, (∃ cfg, s.agenda = .hdrEnc cfg :: rest) ∨ (∃ bytes, s.agenda = .hdrDec bytes :: rest) ∨
      s.agenda = .reset .hdr :: rest)

/-- 10_state.md sections 4 and 8: how `PHASE` changes. A start leaves IDLE, DONE or ERROR for BUSY or ERROR; a step leaves
BUSY for DONE or, in the decoder, ERROR; a reset gives IDLE; nothing else changes it, so no command ends an operation early. -/
def Obligations.PhaseTransitions : Prop :=
  (∀ s t : State, step s = .next t → t.dec.phase ≠ s.dec.phase →
    (∃ bytes rest, s.agenda = .startDecode bytes :: rest ∧ s.dec.phase ≠ .busy ∧ (t.dec.phase = .busy ∨ t.dec.phase = .error)) ∨
    (∃ rest, s.agenda = .reset .dec :: rest ∧ t.dec.phase = .idle) ∨
    (∃ rest, s.decTurn rest ∧ s.dec.phase = .busy ∧ (t.dec.phase = .done ∨ t.dec.phase = .error))) ∧
  (∀ s t : State, step s = .next t → t.enc.phase ≠ s.enc.phase →
    (∃ cfg pixels rest, s.agenda = .startEncode cfg pixels :: rest ∧ s.enc.phase ≠ .busy ∧
      (t.enc.phase = .busy ∨ t.enc.phase = .error)) ∨
    (∃ rest, s.agenda = .reset .enc :: rest ∧ t.enc.phase = .idle) ∨
    (∃ rest, s.encTurn rest ∧ s.enc.phase = .busy ∧ t.enc.phase = .done))

/-- 10_state.md section 8: a start command while `BUSY` has no effect on any unit (the command is gone, log 3). -/
def Obligations.StartWhileBusyIgnored : Prop :=
  (∀ (s : State) (bytes : List Byte) (rest : List Event), s.agenda = .startDecode bytes :: rest → s.dec.phase = .busy →
    step s = .next { s with agenda := rest }) ∧
  (∀ (s : State) (cfg : ImageConfig) (pixels : List Byte) (rest : List Event),
    s.agenda = .startEncode cfg pixels :: rest → s.enc.phase = .busy → step s = .next { s with agenda := rest })

/-- 70_reset_and_hazards.md section 1 (D21): a hardware reset gives a unit its reset values, during an operation too, and
touches no other unit. -/
def Obligations.ResetRestoresUnit : Prop :=
  (∀ (s : State) (rest : List Event), s.agenda = .reset .enc :: rest →
    ∃ t : State, step s = .next t ∧ t.hdr = s.hdr ∧ t.dec = s.dec ∧ t.agenda = rest ∧
      t.enc.phase = .idle ∧ t.enc.err = none ∧ t.enc.cfg = ⟨0, 0, 0, 0⟩ ∧
      (∀ slot, Cache.read t.enc.cache slot = ⟨0, 0, 0, 0⟩) ∧ t.enc.prev = ⟨0, 0, 0, 255⟩ ∧ t.enc.run = 0 ∧
      t.enc.count = 0 ∧ t.enc.out = []) ∧
  (∀ (s : State) (rest : List Event), s.agenda = .reset .dec :: rest →
    ∃ t : State, step s = .next t ∧ t.hdr = s.hdr ∧ t.enc = s.enc ∧ t.agenda = rest ∧
      t.dec.phase = .idle ∧ t.dec.err = none ∧ t.dec.cfg = ⟨0, 0, 0, 0⟩ ∧ t.dec.len = 0 ∧ t.dec.pos = 0 ∧
      (∀ slot, Cache.read t.dec.cache slot = ⟨0, 0, 0, 0⟩) ∧ t.dec.prev = ⟨0, 0, 0, 255⟩ ∧ t.dec.run = 0 ∧
      t.dec.count = 0 ∧ (∀ a, Memory.read t.dec.outbuf a = none)) ∧
  (∀ (s : State) (rest : List Event), s.agenda = .reset .hdr :: rest →
    ∃ t : State, step s = .next t ∧ t.enc = s.enc ∧ t.dec = s.dec ∧ t.agenda = rest ∧
      t.hdr.phase = .idle ∧ t.hdr.err = none ∧ t.hdr.result = .empty)

/-- 70_reset_and_hazards.md section 1: with no command coming and no operation in progress, the block waits. -/
def Obligations.IdleBlockWaits : Prop :=
  ∀ s : State, s.agenda = [] → s.enc.phase ≠ .busy → s.dec.phase ≠ .busy → step s = .next s

/-- R221: every start that is not refused and raises nothing sets the same working state, whatever the unit held before. -/
def Obligations.StartInitialises : Prop :=
  (∀ (s t : State) (bytes : List Byte) (rest : List Event), s.agenda = .startDecode bytes :: rest →
    s.dec.phase ≠ .busy → step s = .next t → t.dec.phase = .busy →
    (∀ slot, Cache.read t.dec.cache slot = ⟨0, 0, 0, 0⟩) ∧ t.dec.prev = ⟨0, 0, 0, 255⟩ ∧ t.dec.run = 0 ∧
      t.dec.count = 0 ∧ t.dec.err = none ∧ t.dec.pos = 14) ∧
  (∀ (s t : State) (cfg : ImageConfig) (pixels : List Byte) (rest : List Event),
    s.agenda = .startEncode cfg pixels :: rest → s.enc.phase ≠ .busy → step s = .next t → t.enc.phase = .busy →
    (∀ slot, Cache.read t.enc.cache slot = ⟨0, 0, 0, 0⟩) ∧ t.enc.prev = ⟨0, 0, 0, 255⟩ ∧ t.enc.run = 0 ∧
      t.enc.count = 0 ∧ t.enc.err = none)

/-- 70_reset_and_hazards.md section 1 (no persistence): the outcome of a start depends on its inputs alone. The units may
hold anything before; they then end in the same phase with the same `ERR`, and, when `BUSY`, in the same record (but for
the model's own counter of free values, log 5). -/
def Obligations.NoPersistence : Prop :=
  (∀ (s1 s2 t1 t2 : State) (bytes : List Byte) (r1 r2 : List Event),
    s1.agenda = .startDecode bytes :: r1 → s2.agenda = .startDecode bytes :: r2 →
    s1.dec.phase ≠ .busy → s2.dec.phase ≠ .busy → step s1 = .next t1 → step s2 = .next t2 →
    t1.dec.phase = t2.dec.phase ∧ t1.dec.err = t2.dec.err ∧
      (t1.dec.phase = .busy → { t1.dec with voids := 0 } = { t2.dec with voids := 0 })) ∧
  (∀ (s1 s2 t1 t2 : State) (cfg : ImageConfig) (pixels : List Byte) (r1 r2 : List Event),
    s1.agenda = .startEncode cfg pixels :: r1 → s2.agenda = .startEncode cfg pixels :: r2 →
    s1.enc.phase ≠ .busy → s2.enc.phase ≠ .busy → step s1 = .next t1 → step s2 = .next t2 →
    t1.enc.phase = t2.enc.phase ∧ t1.enc.err = t2.enc.err ∧
      (t1.enc.phase = .busy → { t1.enc with voids := 0 } = { t2.enc with voids := 0 }))

/-- 60_exceptions.md section 4 (instances): a step changes at most one unit's record, and what it makes of the decoder or
of the encoder depends on that unit alone. -/
def Obligations.UnitsAreIsolated : Prop :=
  (∀ s t : State, step s = .next t →
    (t.hdr = s.hdr ∧ t.enc = s.enc) ∨ (t.hdr = s.hdr ∧ t.dec = s.dec) ∨ (t.enc = s.enc ∧ t.dec = s.dec)) ∧
  (∀ (s1 s2 t1 t2 : State) (e : Event) (r1 r2 : List Event), s1.agenda = e :: r1 → s2.agenda = e :: r2 →
    step s1 = .next t1 → step s2 = .next t2 →
    (s1.dec = s2.dec → t1.dec = t2.dec) ∧ (s1.enc = s2.enc → t1.enc = t2.enc) ∧ (s1.hdr = s2.hdr → t1.hdr = t2.hdr))

/-- 70_reset_and_hazards.md section 2 (trailer protection): what a chunk step does depends on no byte of the trailer. -/
def Obligations.TrailerNotReadByChunks : Prop :=
  ∀ (s t : State) (other : List Byte) (rest : List Event), s.decTurn rest → s.dec.inRegion →
    other.take (s.dec.len - 8) = s.dec.bytes.take (s.dec.len - 8) → step s = .next t →
    step { s with dec := { s.dec with bytes := other } } = .next { t with dec := { t.dec with bytes := other } }

/-! The encoder -/

/-- R133: a pixel equal to `prev` lengthens the run; the run is emitted when it reaches 62 or at the last pixel. -/
def Obligations.EncoderExtendsRun : Prop :=
  ∀ (s : State) (rest : List Event) (p : Pixel), s.pixelTurn rest p → s.enc.run.toNat ≤ 61 → p = s.enc.prev →
    step s = .next { s with
      agenda := rest
      enc :=
        if s.enc.run.toNat + 1 = 62 ∨ s.enc.count + 1 = pixelCount s.enc.cfg then
          { s.enc with out := s.enc.out ++ [BitVec.ofNat 8 (0xC0 + s.enc.run.toNat)], run := 0, count := s.enc.count + 1 }
        else { s.enc with run := BitVec.ofNat 6 (s.enc.run.toNat + 1), count := s.enc.count + 1 } }

/-- R135: a pixel that differs from `prev` first flushes the run; if the cache holds exactly that pixel, its slot
number is emitted and the cache is not updated. -/
def Obligations.EncoderEmitsIndex : Prop :=
  ∀ (s : State) (rest : List Event) (p : Pixel), s.pixelTurn rest p → p ≠ s.enc.prev →
    Cache.read s.enc.cache (slotHash p) = p →
    step s = .next { s with
      agenda := rest
      enc := { s.enc with
        out := s.enc.out ++ runFlush s.enc.run ++ [BitVec.ofNat 8 (slotHash p).toNat], run := 0, prev := p,
        count := s.enc.count + 1 } }

/-- R136: the deltas in range, the pixel is emitted as `DIFF` and written to the cache and to `prev`. -/
def Obligations.EncoderEmitsDiff : Prop :=
  ∀ (s : State) (rest : List Event) (p : Pixel), s.pixelTurn rest p → p ≠ s.enc.prev →
    Cache.read s.enc.cache (slotHash p) ≠ p → diffOk p s.enc.prev = true →
    let d := deltasOf p s.enc.prev
    step s = .next { s with
      agenda := rest
      enc := { s.enc with
        out := s.enc.out ++ runFlush s.enc.run ++ [BitVec.ofInt 8 (0x40 + (d.dr + 2) * 16 + (d.dg + 2) * 4 + (d.db + 2))],
        run := 0, cache := Cache.write s.enc.cache (slotHash p) p, prev := p, count := s.enc.count + 1 } }

/-- R137: the luma differences in range and the deltas not, the pixel is emitted as `LUMA`. -/
def Obligations.EncoderEmitsLuma : Prop :=
  ∀ (s : State) (rest : List Event) (p : Pixel), s.pixelTurn rest p → p ≠ s.enc.prev →
    Cache.read s.enc.cache (slotHash p) ≠ p → diffOk p s.enc.prev = false → lumaOk p s.enc.prev = true →
    let d := deltasOf p s.enc.prev
    step s = .next { s with
      agenda := rest
      enc := { s.enc with
        out := s.enc.out ++ runFlush s.enc.run ++
          [BitVec.ofInt 8 (0x80 + (d.dg + 32)), BitVec.ofInt 8 ((d.drg + 8) * 16 + (d.dbg + 8))],
        run := 0, cache := Cache.write s.enc.cache (slotHash p) p, prev := p, count := s.enc.count + 1 } }

/-- R138 (and R139): out of both ranges, the pixel is emitted as `RGB` if alpha is unchanged and as `RGBA` if not. -/
def Obligations.EncoderEmitsLiteral : Prop :=
  ∀ (s : State) (rest : List Event) (p : Pixel), s.pixelTurn rest p → p ≠ s.enc.prev →
    Cache.read s.enc.cache (slotHash p) ≠ p → diffOk p s.enc.prev = false → lumaOk p s.enc.prev = false →
    step s = .next { s with
      agenda := rest
      enc := { s.enc with
        out := s.enc.out ++ runFlush s.enc.run ++
          (if p.a = s.enc.prev.a then [0xFE, p.r, p.g, p.b] else [0xFF, p.r, p.g, p.b, p.a]),
        run := 0, cache := Cache.write s.enc.cache (slotHash p) p, prev := p, count := s.enc.count + 1 } }

/-- R141: the end step appends the end marker and ends the operation. -/
def Obligations.EncoderEndStep : Prop :=
  ∀ (s : State) (rest : List Event), s.encTurn rest → s.enc.phase = .busy → s.enc.count = pixelCount s.enc.cfg →
    step s = .next { s with
      agenda := rest, enc := { s.enc with out := s.enc.out ++ [0, 0, 0, 0, 0, 0, 0, 1], phase := .done } }

/-- 42_encoder.md section 3 (the spec's derivation): when the last pixel has been taken no run is pending. -/
def Obligations.NoRunPendingAtEnd : Prop :=
  ∀ (s t : State) (rest : List Event), s.Inv → s.encTurn rest → s.enc.phase = .busy → step s = .next t →
    t.enc.phase = .busy → t.enc.count = pixelCount t.enc.cfg → t.enc.run = 0

/-- 42_encoder.md section 1: the start step of the encoder; the header's checks, then the length of the buffer (D16), then
the start values and the 14 header bytes. The copy of the pixels into the state is the model's choice (log 4). -/
def Obligations.StartEncodeStep : Prop :=
  ∀ (s : State) (cfg : ImageConfig) (pixels : List Byte) (rest : List Event),
    s.agenda = .startEncode cfg pixels :: rest → s.enc.phase ≠ .busy →
    ∃ t : State, step s = .next t ∧ t.hdr = s.hdr ∧ t.dec = s.dec ∧ t.agenda = rest ∧
      (match hdrEnc cfg with
        | .error k => t.enc.phase = .error ∧ t.enc.err = some k
        | .ok hdr =>
          if pixels.length ≠ cfg.width.toNat * cfg.height.toNat * cfg.channels.toNat then
            t.enc.phase = .error ∧ t.enc.err = some .pixelCountMismatch
          else t.enc.phase = .busy ∧ t.enc.err = none ∧ t.enc.cfg = cfg ∧ t.enc.pixels = pixels ∧
            (∀ slot, Cache.read t.enc.cache slot = ⟨0, 0, 0, 0⟩) ∧ t.enc.prev = ⟨0, 0, 0, 255⟩ ∧
            t.enc.run = 0 ∧ t.enc.count = 0 ∧ t.enc.out = hdr)

/-- 41_pixel_arith_cache.md section 2 (the spec's derivation): in a 3-channel encode alpha never changes, so the chunk of a
fresh pixel is never `RGBA`. -/
def Obligations.ThreeChannelsNeverRgba : Prop :=
  ∀ (e : Enc) (p : Pixel), e.BusyInv → e.cfg.channels = 3 → e.pixRead e.count = some p →
    p.a = e.prev.a ∧ ∀ r g b a, freshChunk p e.prev ≠ .rgba r g b a

/-! Pixel accesses and what the host reads -/

/-- R42: in a buffer of the right length pixel `i` is read from the bytes at `i * C`, its alpha from the fourth of them or,
with 3 channels, 255. -/
def Obligations.PixReadGivesPixel : Prop :=
  ∀ (e : Enc) (i : Nat), e.pixels.length = bufferLength e.cfg → i < pixelCount e.cfg →
    (e.cfg.channels = 3 → ∃ r g b : Byte,
      e.pixels[i * 3]? = some r ∧ e.pixels[i * 3 + 1]? = some g ∧ e.pixels[i * 3 + 2]? = some b ∧
        e.pixRead i = some ⟨r, g, b, 255⟩) ∧
    (e.cfg.channels = 4 → ∃ r g b a : Byte,
      e.pixels[i * 4]? = some r ∧ e.pixels[i * 4 + 1]? = some g ∧ e.pixels[i * 4 + 2]? = some b ∧
        e.pixels[i * 4 + 3]? = some a ∧ e.pixRead i = some ⟨r, g, b, a⟩)

/-- 20_memory.md section 2: a pixel is written to the `C` bytes at `i * C`, alpha dropped when `C = 3`; every other address
and every other register is unchanged. -/
def Obligations.PixWriteWritesPixel : Prop :=
  ∀ (d : Dec) (i : Nat) (p : Pixel), i < pixelCount d.cfg → (d.cfg.channels = 3 ∨ d.cfg.channels = 4) →
    ∃ out : Memory, d.pixWrite i p = some { d with outbuf := out } ∧
      ∀ a, Memory.read out a =
        if i * d.cfg.channels.toNat ≤ a ∧ a < (i + 1) * d.cfg.channels.toNat then
          [p.r, p.g, p.b, p.a][a - i * d.cfg.channels.toNat]?
        else Memory.read d.outbuf a

/-- 10_state.md section 8 (results): the host reads the outputs when `DONE`, the code of the error and nothing else when
`ERROR`, and the phase alone when `BUSY`. In `IDLE`, of which the spec says nothing, the phase alone: the model's choice
(log 24). A byte of the output is read when `DONE` and in no other phase. -/
def Obligations.HostReadsByPhase : Prop :=
  (∀ h : Hdr, (h.phase = .done → h.view = .done h.result) ∧
    (∀ k, h.phase = .error → h.err = some k → h.view = .error (errKindCode k)) ∧
    (h.phase = .busy → h.view = .busy) ∧ (h.phase = .idle → h.view = .idle)) ∧
  (∀ e : Enc, (e.phase = .done → e.view = .done e.out) ∧
    (∀ k, e.phase = .error → e.err = some k → e.view = .error (errKindCode k)) ∧
    (e.phase = .busy → e.view = .busy) ∧ (e.phase = .idle → e.view = .idle)) ∧
  (∀ d : Dec, (d.phase = .done → d.view = .done d.image ∧ ∀ a, d.readOut a = Memory.read d.outbuf a) ∧
    (∀ k, d.phase = .error → d.err = some k → d.view = .error (errKindCode k)) ∧
    (d.phase = .busy → d.view = .busy) ∧ (d.phase = .idle → d.view = .idle) ∧
    (d.phase ≠ .done → ∀ a, d.readOut a = none))

/-! Arithmetic -/

/-- 41_pixel_arith_cache.md section 5 (the spec's derivation): within its range each chunk's deltas rebuild the pixel. -/
def Obligations.InverseLaws : Prop :=
  ∀ p prev : Pixel,
    (diffOk p prev = true →
      applyDiff prev (deltasOf p prev).dr (deltasOf p prev).dg (deltasOf p prev).db = p) ∧
    (lumaOk p prev = true →
      applyLuma prev (deltasOf p prev).dg (deltasOf p prev).drg (deltasOf p prev).dbg = p)

/-- 41_pixel_arith_cache.md sections 2 and 3 (the spec's derivations): `DIFF_OK` implies `LUMA_OK`, and the second wrap of
the luma differences never changes the outcome of the `LUMA` test. -/
def Obligations.LumaTestLaws : Prop :=
  ∀ p prev : Pixel,
    (diffOk p prev = true → lumaOk p prev = true) ∧
    (let d := deltasOf p prev;
      lumaOk p prev = true ↔ p.a = prev.a ∧ (-32 ≤ d.dg ∧ d.dg ≤ 31) ∧
        (-8 ≤ d.dr - d.dg ∧ d.dr - d.dg ≤ 7) ∧ (-8 ≤ d.db - d.dg ∧ d.db - d.dg ≤ 7))

/-- 41_pixel_arith_cache.md section 1: the slot is the exact sum mod 64, and the low six bits of every partial product and
sum give the same slot (the spec's derivation). -/
def Obligations.HashKeepsSixBits : Prop :=
  ∀ p : Pixel,
    (slotHash p).toNat = (p.r.toNat * 3 + p.g.toNat * 5 + p.b.toNat * 7 + p.a.toNat * 11) % 64 ∧
    slotHash p = p.r.setWidth 6 * 3 + p.g.setWidth 6 * 5 + p.b.setWidth 6 * 7 + p.a.setWidth 6 * 11

/-- 10_state.md section 2: the cache is written by `DIFF`, `LUMA`, `RGB`, `RGBA` chunks, in both directions, and by nothing
else but the start of an operation. -/
def Obligations.OnlyFreshChunksWriteCache : Prop :=
  (∀ (i : Instr) (s t : State), exec i s = .next t → t.dec.cache ≠ s.dec.cache →
    (∃ r g b, i = .rgb r g b) ∨ (∃ r g b a, i = .rgba r g b a) ∨ (∃ dr dg db, i = .diff dr dg db) ∨
      (∃ dg drg dbg, i = .luma dg drg dbg) ∨ (∃ cfg, i = .header cfg)) ∧
  (∀ (e : Enc) (p : Pixel), (e.takePixel p).cache ≠ e.cache →
    p ≠ e.prev ∧ Cache.read e.cache (slotHash p) ≠ p ∧ (e.takePixel p).cache = Cache.write e.cache (slotHash p) p)

/-! Invariants and whole operations -/

/-- 10_state.md section 7 (the invariants, the spec's derivation) with the canonical form of the memory: every step keeps the
invariant, and with it that of `prev` and the cache: after `DIFF`, `LUMA`, `RGB`, `RGBA` or an encoder's `INDEX`, and any
`RLE` after it, the cache holds `prev` in its slot. -/
def Obligations.StepKeepsInvariant : Prop :=
  (∀ s t : State, s.Inv → step s = .next t → t.Inv) ∧
  (∀ s t : State, s.Inv → s.PrevInv → step s = .next t → t.PrevInv)

/-- The machine right after reset meets both invariants. -/
def Obligations.ResetMeetsInvariant : Prop := State.reset.Inv ∧ State.reset.PrevInv

/-- Under the invariant no step stops: the faults, which are the model's own (log 7), are never reached. -/
def Obligations.NoStopUnderInvariant : Prop := ∀ s : State, s.Inv → ∃ t, step s = .next t

/-- 42_encoder.md section 4: started on legal inputs, the encoder takes its start step, `N` pixel steps and its end step and
holds the stream of `ENCODE`; on others the start step raises the error of `ENCODE`. -/
def Obligations.EncoderRefinesEncode : Prop :=
  ∀ (s : State) (cfg : ImageConfig) (pixels : List Byte), s.agenda = [.startEncode cfg pixels] →
    s.enc.phase ≠ .busy → s.dec.phase ≠ .busy →
    match encodeImage cfg pixels with
    | .ok out => ∃ t : State, Sys2Proof.core.run (pixelCount cfg + 2) s = .next t ∧ t.enc.view = .done out
    | .error k => ∃ t : State, step s = .next t ∧ t.enc.view = .error (errCode (some k))

/-- 43_decoder.md section 4: started on any bytes, the decoder ends after at most `L + 1` steps with the image or the error
of `DECODE`. -/
def Obligations.DecoderRefinesDecode : Prop :=
  ∀ (s : State) (bytes : List Byte), s.agenda = [.startDecode bytes] → s.dec.phase ≠ .busy →
    ∃ (k : Nat) (t : State), k ≤ bytes.length + 1 ∧ Sys2Proof.core.run k s = .next t ∧
      match decodeStream bytes with
      | .ok img => t.dec.view = .done (some img)
      | .error e => t.dec.view = .error (errCode (some e))

/-- 43_decoder.md section 5: decoding an encoded image gives it back, bit for bit; the converse does not hold for every decodable stream. -/
def Obligations.RoundTrip : Prop :=
  (∀ (cfg : ImageConfig) (pixels bytes : List Byte), encodeImage cfg pixels = .ok bytes →
    decodeStream bytes = .ok ⟨cfg, pixels⟩) ∧
  (∃ (bytes : List Byte) (img : RawImage), decodeStream bytes = .ok img ∧ encodeImage img.cfg img.pixels ≠ .ok bytes)

/-- 70_reset_and_hazards.md section 2 (lockstep), 43_decoder.md section 5 (the invariant, the spec's derivation): a decoder in step with the encoder (equal configuration, cache and `prev`, its count
that of the pixels emitted) that executes what the encoder emits for one pixel is in step with it again. -/
def Obligations.LockstepOfOnePixel : Prop :=
  ∀ (e : Enc) (p : Pixel) (s : State), e.BusyInv → e.pixRead e.count = some p →
    s.dec.phase = .busy → s.dec.cfg = e.cfg → s.dec.cache = e.cache → s.dec.prev = e.prev →
    s.dec.count = e.count - e.run.toNat → s.dec.pos + 14 ≤ s.dec.len →
    ∃ (chunks : List Instr) (t : State),
      (e.takePixel p).out = e.out ++ (chunks.map encode).flatten ∧
      (∀ i ∈ chunks, i.WellFormed ∧ frameOf i = .chunk) ∧
      execAll chunks s = .next t ∧ t.dec.phase = .busy ∧ t.dec.cfg = e.cfg ∧
      t.dec.cache = (e.takePixel p).cache ∧ t.dec.prev = (e.takePixel p).prev ∧
      t.dec.count = (e.takePixel p).count - (e.takePixel p).run.toNat

/-- 60_exceptions.md section 4 (termination): every operation in progress ends: an encode after the pixel steps left and its end step, a decode after at most
one step per byte left in the region and its finish step. -/
def Obligations.OperationsEnd : Prop :=
  (∀ s : State, s.Inv → s.agenda = [] → s.enc.phase = .busy → s.dec.phase ≠ .busy →
    ∃ t : State, Sys2Proof.core.run (pixelCount s.enc.cfg - s.enc.count + 1) s = .next t ∧ t.enc.phase = .done) ∧
  (∀ s : State, s.Inv → s.agenda = [] → s.dec.phase = .busy →
    ∃ (k : Nat) (t : State), k ≤ s.dec.remaining + 1 ∧ Sys2Proof.core.run k s = .next t ∧
      (t.dec.phase = .done ∨ t.dec.phase = .error)) ∧
  (∀ run : Nat, (Instr.rle run).WellFormed → run ≤ 62)

/-- 42_encoder.md section 4, property (a) (the spec's derivation): the bounds on the length of an encoded stream. -/
def Obligations.EncodedLengthBounds : Prop :=
  ∀ (cfg : ImageConfig) (pixels bytes : List Byte), encodeImage cfg pixels = .ok bytes →
    23 ≤ bytes.length ∧ bytes.length ≤ 22 + 5 * pixelCount cfg ∧
      (cfg.channels = 3 → bytes.length ≤ 22 + 4 * pixelCount cfg)

/-- 10_state.md sections 5 and 8: when the decoder is `DONE` the host reads a whole image, every position of it written. -/
def Obligations.DoneImageIsWhole : Prop :=
  ∀ s : State, s.Inv → s.dec.phase = .done →
    ∃ img : RawImage, s.dec.view = .done (some img) ∧ img.cfg = s.dec.cfg ∧ img.pixels.length = bufferLength s.dec.cfg ∧
      ∀ a, a < bufferLength s.dec.cfg → s.dec.readOut a = img.pixels[a]?
end

