-- ==== Sys2Proof/Laws/Arithmetic.lean ====
section
/-! SUPPORT. The pixel arithmetic: what wrapping and the signed reading of a byte keep, and the two range tests as
propositions. -/

namespace Sys2Proof.Machine

theorem s8_bounds (z : Int) : -128 ≤ s8 z ∧ s8 z ≤ 127 := by
  have h1 := BitVec.le_toInt (wrap8 z)
  have h2 := BitVec.toInt_lt (x := wrap8 z)
  unfold s8
  omega

/-- The signed reading differs from the exact value by a multiple of 256. -/
theorem s8_congr (z : Int) : (256 : Int) ∣ s8 z - z := by
  unfold s8 wrap8
  rw [BitVec.toInt_ofInt]
  have h := Int.bmod_emod (x := z) (m := 2 ^ 8)
  omega

/-- Wrapping sees a value mod 256 only. -/
theorem wrap8_congr {x y : Int} (h : (256 : Int) ∣ x - y) : wrap8 x = wrap8 y := by
  unfold wrap8
  apply BitVec.eq_of_toNat_eq
  rw [BitVec.toNat_ofInt, BitVec.toNat_ofInt]
  omega

@[simp] theorem wrap8_toNat (x : Byte) : wrap8 x.toNat = x := by
  unfold wrap8
  apply BitVec.eq_of_toNat_eq
  rw [BitVec.toNat_ofInt]
  have := x.isLt
  omega

/-- The channel difference is the signed reading of the byte subtraction (R111). -/
theorem delta_eq_toInt (x y : Byte) : delta x y = (x - y).toInt := by
  unfold delta s8 wrap8
  congr 1
  apply BitVec.eq_of_toNat_eq
  rw [BitVec.toNat_ofInt, BitVec.toNat_sub]
  have := x.isLt
  have := y.isLt
  omega

theorem diffOk_iff (p prev : Pixel) :
    diffOk p prev = true ↔ p.a = prev.a ∧ (-2 ≤ (deltasOf p prev).dr ∧ (deltasOf p prev).dr ≤ 1) ∧
      (-2 ≤ (deltasOf p prev).dg ∧ (deltasOf p prev).dg ≤ 1) ∧ (-2 ≤ (deltasOf p prev).db ∧ (deltasOf p prev).db ≤ 1) :=
  decide_eq_true_iff

theorem lumaOk_iff (p prev : Pixel) :
    lumaOk p prev = true ↔ p.a = prev.a ∧ (-32 ≤ (deltasOf p prev).dg ∧ (deltasOf p prev).dg ≤ 31) ∧
      (-8 ≤ (deltasOf p prev).drg ∧ (deltasOf p prev).drg ≤ 7) ∧
      (-8 ≤ (deltasOf p prev).dbg ∧ (deltasOf p prev).dbg ≤ 7) :=
  decide_eq_true_iff

theorem cacheHit_iff (c : Cache) (p : Pixel) : cacheHit c p = true ↔ Cache.read c (slotHash p) = p :=
  decide_eq_true_iff

end Sys2Proof.Machine
end

