-- ==== Sys2Proof/Laws/Cache.lean ====
section
/-! SUPPORT. The running-index cache: a slot holds what was written last, the other 63 slots are untouched (R118, R227). -/

namespace Sys2Proof.Machine

@[simp] theorem Cache.read_write_same (c : Cache) (i : BitVec 6) (p : Pixel) : Cache.read (Cache.write c i p) i = p := by
  simp [Cache.read, Cache.write, Vector.get_eq_getElem]

theorem Cache.read_write_other (c : Cache) (i j : BitVec 6) (p : Pixel) (h : j ≠ i) :
    Cache.read (Cache.write c i p) j = Cache.read c j := by
  have hne : i.toNat ≠ j.toNat := fun hh => h (BitVec.eq_of_toNat_eq hh.symm)
  simp [Cache.read, Cache.write, Vector.get_eq_getElem, hne]

@[simp] theorem Cache.read_update_same (c : Cache) (p : Pixel) : Cache.read (Cache.update c p) (slotHash p) = p :=
  Cache.read_write_same c (slotHash p) p

theorem Cache.read_update_other (c : Cache) (p : Pixel) (j : BitVec 6) (h : j ≠ slotHash p) :
    Cache.read (Cache.update c p) j = Cache.read c j :=
  Cache.read_write_other c (slotHash p) j p h

@[simp] theorem Cache.read_init (i : BitVec 6) : Cache.read Cache.init i = Config.cacheInit := by
  simp [Cache.read, Cache.init, Vector.get_eq_getElem]

end Sys2Proof.Machine
end

