-- ==== Sys2Proof/Laws/Memory.lean ====
section
/-! SUPPORT. The output memory: reading what was written, leaving every other address alone, keeping the canonical form. -/

namespace Sys2Proof.Machine

theorem Memory.read_write_same (m : Memory) (a : Nat) (x : Byte) : Memory.read (Memory.write m a x) a = some x := by
  induction m with
  | nil => simp [Memory.write, Memory.read]
  | cons kv m ih =>
    obtain ⟨k, v⟩ := kv
    simp only [Memory.write]
    split
    · simp [Memory.read]
    · split
      · simp [Memory.read]
      · rename_i _ h
        simpa [Memory.read, h] using ih

theorem Memory.read_write_other (m : Memory) (a b : Nat) (x : Byte) (h : b ≠ a) :
    Memory.read (Memory.write m a x) b = Memory.read m b := by
  induction m with
  | nil => simp [Memory.write, Memory.read, h]
  | cons kv m ih =>
    obtain ⟨k, v⟩ := kv
    simp only [Memory.write]
    split
    · simp [Memory.read, h]
    · split
      · rename_i _ hk
        subst hk
        simp [Memory.read, h]
      · simp [Memory.read, ih]

/-- One byte written: what every address reads as. -/
theorem Memory.read_write (m : Memory) (a b : Nat) (x : Byte) :
    Memory.read (Memory.write m a x) b = if b = a then some x else Memory.read m b := by
  split
  · subst b
    exact Memory.read_write_same m a x
  · exact Memory.read_write_other m a b x ‹_›

/-- Bytes written from `a`: what every address reads as. -/
theorem Memory.read_writeBytes (xs : List Byte) (m : Memory) (a b : Nat) :
    Memory.read (Memory.writeBytes m a xs) b =
      if a ≤ b ∧ b < a + xs.length then xs[b - a]? else Memory.read m b := by
  induction xs generalizing m a with
  | nil =>
    have h : ¬(a ≤ b ∧ b < a + ([] : List Byte).length) := by simp
    rw [if_neg h]
    rfl
  | cons x xs ih =>
    simp only [Memory.writeBytes, ih, Memory.read_write, List.length_cons]
    by_cases hb : b = a
    · subst hb
      simp
    · by_cases hin : a + 1 ≤ b ∧ b < a + 1 + xs.length
      · have h1 : a ≤ b ∧ b < a + (xs.length + 1) := by omega
        have h2 : b - a = b - (a + 1) + 1 := by omega
        simp [hin, h1, h2]
      · have h1 : ¬(a ≤ b ∧ b < a + (xs.length + 1)) := by omega
        rw [if_neg hin, if_neg h1, if_neg hb]

theorem Memory.read_writeBytes_outside (xs : List Byte) (m : Memory) (a b : Nat) (h : b < a ∨ a + xs.length ≤ b) :
    Memory.read (Memory.writeBytes m a xs) b = Memory.read m b := by
  rw [Memory.read_writeBytes, if_neg (by omega)]

theorem Memory.read_ofBytes (bs : List Byte) (a : Nat) : Memory.read (Memory.ofBytes bs) a = bs[a]? := by
  rw [Memory.ofBytes, Memory.read_writeBytes]
  by_cases h : a < bs.length
  · simp [h]
  · simp [h, Memory.read]

/-- Writing lists no address but the one written and those already listed. -/
theorem Memory.mem_addresses_write (m : Memory) (a b : Nat) (x : Byte) (h : b ∈ (Memory.write m a x).map Prod.fst) :
    b = a ∨ b ∈ m.map Prod.fst := by
  induction m with
  | nil => simpa [Memory.write] using h
  | cons kv m ih =>
    obtain ⟨k, v⟩ := kv
    simp only [Memory.write] at h
    split at h
    · simpa using h
    · split at h
      · rename_i _ hk
        subst hk
        simp only [List.map_cons, List.mem_cons] at h ⊢
        tauto
      · simp only [List.map_cons, List.mem_cons] at h ⊢
        rcases h with h | h
        · exact .inr (.inl h)
        · rcases ih h with h | h
          · exact .inl h
          · exact .inr (.inr h)

theorem Memory.wf_write (m : Memory) (a : Nat) (x : Byte) (h : Memory.wf m) : Memory.wf (Memory.write m a x) := by
  induction m with
  | nil => simp [Memory.write, Memory.wf]
  | cons kv m ih =>
    obtain ⟨k, v⟩ := kv
    have hk : ∀ b ∈ m.map Prod.fst, k < b := by
      simpa using (List.pairwise_cons.mp h).1
    have hm : Memory.wf m := (List.pairwise_cons.mp h).2
    simp only [Memory.write]
    split
    · rename_i hlt
      refine List.pairwise_cons.mpr ⟨?_, h⟩
      intro b hb
      rcases List.mem_cons.mp hb with rfl | hb
      · exact hlt
      · exact lt_trans hlt (hk b hb)
    · split
      · rename_i _ heq
        subst heq
        exact List.pairwise_cons.mpr ⟨hk, hm⟩
      · refine List.pairwise_cons.mpr ⟨?_, ih hm⟩
        intro b hb
        rcases Memory.mem_addresses_write m a b x hb with rfl | hb
        · show k < b
          omega
        · exact hk b hb

theorem Memory.wf_writeBytes (xs : List Byte) (m : Memory) (a : Nat) (h : Memory.wf m) :
    Memory.wf (Memory.writeBytes m a xs) := by
  induction xs generalizing m a with
  | nil => exact h
  | cons x xs ih => exact ih _ _ (Memory.wf_write m a x h)

theorem Memory.wf_nil : Memory.wf [] := List.Pairwise.nil

theorem Memory.wf_ofBytes (bs : List Byte) : Memory.wf (Memory.ofBytes bs) := Memory.wf_writeBytes bs [] 0 Memory.wf_nil

theorem Memory.wf_reset : Memory.wf State.reset.dec.outbuf := Memory.wf_nil

/-- `PixWrite` keeps the canonical form. -/
theorem Dec.wf_pixWrite (d d' : Dec) (i : Nat) (p : Pixel) (h : d.pixWrite i p = some d') (hw : Memory.wf d.outbuf) :
    Memory.wf d'.outbuf := by
  unfold Dec.pixWrite at h
  split at h
  · cases h
    exact Memory.wf_writeBytes _ _ _ hw
  · cases h

end Sys2Proof.Machine
end

