-- ==== Sys2Proof/Laws/State.lean ====
section
/-! SUPPORT. Each record update named by an operation, field by field, so that no later proof unfolds one. -/

namespace Sys2Proof.Machine

section dec
variable (d : Dec) (k : ErrKind) (cfg : ImageConfig)

@[simp] theorem Dec.raise_phase : (d.raise k).phase = .error := rfl
@[simp] theorem Dec.raise_err : (d.raise k).err = some k := rfl
@[simp] theorem Dec.raise_cfg : (d.raise k).cfg = Config.voidConfig .dec d.voids := rfl
@[simp] theorem Dec.raise_bytes : (d.raise k).bytes = d.bytes := rfl
@[simp] theorem Dec.raise_len : (d.raise k).len = d.len := rfl
@[simp] theorem Dec.raise_pos : (d.raise k).pos = d.pos := rfl
@[simp] theorem Dec.raise_cache : (d.raise k).cache = d.cache := rfl
@[simp] theorem Dec.raise_prev : (d.raise k).prev = d.prev := rfl
@[simp] theorem Dec.raise_run : (d.raise k).run = d.run := rfl
@[simp] theorem Dec.raise_count : (d.raise k).count = d.count := rfl
@[simp] theorem Dec.raise_outbuf : (d.raise k).outbuf = Memory.ofBytes (Config.voidBytes .dec d.voids) := rfl
@[simp] theorem Dec.raise_voids : (d.raise k).voids = d.voids + 1 := rfl

@[simp] theorem Dec.begin_phase : (d.begin cfg).phase = .busy := rfl
@[simp] theorem Dec.begin_err : (d.begin cfg).err = d.err := rfl
@[simp] theorem Dec.begin_cfg : (d.begin cfg).cfg = cfg := rfl
@[simp] theorem Dec.begin_bytes : (d.begin cfg).bytes = d.bytes := rfl
@[simp] theorem Dec.begin_len : (d.begin cfg).len = d.len := rfl
@[simp] theorem Dec.begin_pos : (d.begin cfg).pos = Config.headerLen := rfl
@[simp] theorem Dec.begin_cache : (d.begin cfg).cache = Cache.init := rfl
@[simp] theorem Dec.begin_prev : (d.begin cfg).prev = Config.prevInit := rfl
@[simp] theorem Dec.begin_run : (d.begin cfg).run = 0 := rfl
@[simp] theorem Dec.begin_count : (d.begin cfg).count = 0 := rfl
@[simp] theorem Dec.begin_outbuf : (d.begin cfg).outbuf = [] := rfl
@[simp] theorem Dec.begin_voids : (d.begin cfg).voids = d.voids := rfl

end dec

section enc
variable (e : Enc) (k : ErrKind) (i : Instr)

@[simp] theorem Enc.raise_phase : (e.raise k).phase = .error := rfl
@[simp] theorem Enc.raise_err : (e.raise k).err = some k := rfl
@[simp] theorem Enc.raise_cfg : (e.raise k).cfg = e.cfg := rfl
@[simp] theorem Enc.raise_pixels : (e.raise k).pixels = e.pixels := rfl
@[simp] theorem Enc.raise_cache : (e.raise k).cache = e.cache := rfl
@[simp] theorem Enc.raise_prev : (e.raise k).prev = e.prev := rfl
@[simp] theorem Enc.raise_run : (e.raise k).run = e.run := rfl
@[simp] theorem Enc.raise_count : (e.raise k).count = e.count := rfl
@[simp] theorem Enc.raise_out : (e.raise k).out = Config.voidBytes .enc e.voids := rfl
@[simp] theorem Enc.raise_voids : (e.raise k).voids = e.voids + 1 := rfl

@[simp] theorem Enc.emit_phase : (e.emit i).phase = e.phase := rfl
@[simp] theorem Enc.emit_err : (e.emit i).err = e.err := rfl
@[simp] theorem Enc.emit_cfg : (e.emit i).cfg = e.cfg := rfl
@[simp] theorem Enc.emit_pixels : (e.emit i).pixels = e.pixels := rfl
@[simp] theorem Enc.emit_cache : (e.emit i).cache = e.cache := rfl
@[simp] theorem Enc.emit_prev : (e.emit i).prev = e.prev := rfl
@[simp] theorem Enc.emit_run : (e.emit i).run = e.run := rfl
@[simp] theorem Enc.emit_count : (e.emit i).count = e.count := rfl
@[simp] theorem Enc.emit_out : (e.emit i).out = e.out ++ encode i := rfl
@[simp] theorem Enc.emit_voids : (e.emit i).voids = e.voids := rfl

@[simp] theorem Enc.finish_phase : e.finish.phase = .done := rfl
@[simp] theorem Enc.finish_err : e.finish.err = e.err := rfl
@[simp] theorem Enc.finish_cfg : e.finish.cfg = e.cfg := rfl
@[simp] theorem Enc.finish_pixels : e.finish.pixels = e.pixels := rfl
@[simp] theorem Enc.finish_cache : e.finish.cache = e.cache := rfl
@[simp] theorem Enc.finish_prev : e.finish.prev = e.prev := rfl
@[simp] theorem Enc.finish_run : e.finish.run = e.run := rfl
@[simp] theorem Enc.finish_count : e.finish.count = e.count := rfl
@[simp] theorem Enc.finish_out : e.finish.out = e.out ++ endMarkerBytes := rfl
@[simp] theorem Enc.finish_voids : e.finish.voids = e.voids := rfl

end enc

section hdr
variable (h : Hdr) (k : ErrKind)

@[simp] theorem Hdr.raise_phase : (h.raise k).phase = .error := rfl
@[simp] theorem Hdr.raise_err : (h.raise k).err = some k := rfl
@[simp] theorem Hdr.raise_result : (h.raise k).result = Config.voidResult h.voids := rfl
@[simp] theorem Hdr.raise_voids : (h.raise k).voids = h.voids + 1 := rfl

end hdr

section block
variable (s : State) (k : ErrKind) (bytes : List Byte)

@[simp] theorem State.raiseDec_hdr : (s.raiseDec k).hdr = s.hdr := rfl
@[simp] theorem State.raiseDec_enc : (s.raiseDec k).enc = s.enc := rfl
@[simp] theorem State.raiseDec_dec : (s.raiseDec k).dec = s.dec.raise k := rfl
@[simp] theorem State.raiseDec_agenda : (s.raiseDec k).agenda = s.agenda := rfl

@[simp] theorem State.latchStream_hdr : (s.latchStream bytes).hdr = s.hdr := rfl
@[simp] theorem State.latchStream_enc : (s.latchStream bytes).enc = s.enc := rfl
@[simp] theorem State.latchStream_agenda : (s.latchStream bytes).agenda = s.agenda := rfl
@[simp] theorem State.latchStream_phase : (s.latchStream bytes).dec.phase = s.dec.phase := rfl
@[simp] theorem State.latchStream_err : (s.latchStream bytes).dec.err = none := rfl
@[simp] theorem State.latchStream_cfg : (s.latchStream bytes).dec.cfg = s.dec.cfg := rfl
@[simp] theorem State.latchStream_bytes : (s.latchStream bytes).dec.bytes = bytes := rfl
@[simp] theorem State.latchStream_len : (s.latchStream bytes).dec.len = bytes.length := rfl
@[simp] theorem State.latchStream_pos : (s.latchStream bytes).dec.pos = s.dec.pos := rfl
@[simp] theorem State.latchStream_cache : (s.latchStream bytes).dec.cache = s.dec.cache := rfl
@[simp] theorem State.latchStream_prev : (s.latchStream bytes).dec.prev = s.dec.prev := rfl
@[simp] theorem State.latchStream_run : (s.latchStream bytes).dec.run = s.dec.run := rfl
@[simp] theorem State.latchStream_count : (s.latchStream bytes).dec.count = s.dec.count := rfl
@[simp] theorem State.latchStream_outbuf : (s.latchStream bytes).dec.outbuf = s.dec.outbuf := rfl
@[simp] theorem State.latchStream_voids : (s.latchStream bytes).dec.voids = s.dec.voids := rfl

end block

end Sys2Proof.Machine
end

