-- ==== Sys2Proof/Laws/Chunks.lean ====
section
/-! SUPPORT. What the decoder's shared operations can do, each said once: the checks a chunk begins with, the common
update, the run countdown, the finish step. Later proofs cite these and do not unfold the operations. -/

namespace Sys2Proof.Machine

/-- The decoder after a chunk that yields one pixel (R169). -/
def Dec.afterPixel (d : Dec) (len : Nat) (p : Pixel) (cache : Cache) : Dec :=
  { d with
    cache := cache, prev := p, count := d.count + 1, pos := d.pos + len,
    outbuf := Memory.writeBytes d.outbuf (d.count * d.cfg.channels.toNat) (pixelBytes d.cfg.channels p) }

section afterPixel
variable (d : Dec) (len : Nat) (p : Pixel) (c : Cache)

@[simp] theorem Dec.afterPixel_phase : (d.afterPixel len p c).phase = d.phase := rfl
@[simp] theorem Dec.afterPixel_err : (d.afterPixel len p c).err = d.err := rfl
@[simp] theorem Dec.afterPixel_cfg : (d.afterPixel len p c).cfg = d.cfg := rfl
@[simp] theorem Dec.afterPixel_bytes : (d.afterPixel len p c).bytes = d.bytes := rfl
@[simp] theorem Dec.afterPixel_len : (d.afterPixel len p c).len = d.len := rfl
@[simp] theorem Dec.afterPixel_pos : (d.afterPixel len p c).pos = d.pos + len := rfl
@[simp] theorem Dec.afterPixel_cache : (d.afterPixel len p c).cache = c := rfl
@[simp] theorem Dec.afterPixel_prev : (d.afterPixel len p c).prev = p := rfl
@[simp] theorem Dec.afterPixel_run : (d.afterPixel len p c).run = d.run := rfl
@[simp] theorem Dec.afterPixel_count : (d.afterPixel len p c).count = d.count + 1 := rfl
@[simp] theorem Dec.afterPixel_voids : (d.afterPixel len p c).voids = d.voids := rfl

end afterPixel

theorem toNat_channels {c : Byte} (h : c = 3 ∨ c = 4) : c.toNat = if c = 4 then 4 else 3 := by
  rcases h with rfl | rfl <;> rfl

@[simp] theorem pixelBytes_length (c : Byte) (p : Pixel) : (pixelBytes c p).length = if c = 4 then 4 else 3 := by
  unfold pixelBytes
  split <;> rfl

/-- A legal configuration has 3 or 4 channels. -/
theorem channels_of_configError {cfg : ImageConfig} (h : configError cfg = none) : cfg.channels = 3 ∨ cfg.channels = 4 := by
  unfold configError at h
  split_ifs at h with h1 h2 h3
  by_contra hc
  exact h2 (by tauto)

/-- A legal configuration has at least one pixel. -/
theorem pixelCount_pos_of_configError {cfg : ImageConfig} (h : configError cfg = none) : 0 < pixelCount cfg := by
  unfold configError at h
  split_ifs at h with h1 h2 h3
  have hw : cfg.width.toNat ≠ 0 := fun hh => h1 (.inl (BitVec.eq_of_toNat_eq hh))
  have hh : cfg.height.toNat ≠ 0 := fun hh => h1 (.inr (BitVec.eq_of_toNat_eq hh))
  exact Nat.mul_pos (Nat.pos_of_ne_zero hw) (Nat.pos_of_ne_zero hh)

theorem Dec.pixWrite_eq {d : Dec} {i : Nat} (p : Pixel) (h : pixelExists d.cfg i) :
    d.pixWrite i p =
      some { d with outbuf := Memory.writeBytes d.outbuf (i * d.cfg.channels.toNat) (pixelBytes d.cfg.channels p) } :=
  if_pos h

theorem Dec.pixWrite_none {d : Dec} {i : Nat} (p : Pixel) (h : ¬pixelExists d.cfg i) : d.pixWrite i p = none := if_neg h

theorem putPixel_eq {s : State} (len : Nat) (p : Pixel) (cache : Cache) (h : pixelExists s.dec.cfg s.dec.count) :
    putPixel len s p cache = .next { s with dec := s.dec.afterPixel len p cache } := by
  unfold putPixel
  rw [Dec.pixWrite_eq p h]
  rfl

/-- If the common update answers a next state, it is that of `Dec.afterPixel`, and the pixel existed. -/
theorem putPixel_next {s t : State} {len : Nat} {p : Pixel} {cache : Cache} (h : putPixel len s p cache = .next t) :
    pixelExists s.dec.cfg s.dec.count ∧ t = { s with dec := s.dec.afterPixel len p cache } := by
  by_cases he : pixelExists s.dec.cfg s.dec.count
  · rw [putPixel_eq len p cache he] at h
    injection h with h
    exact ⟨he, h.symm⟩
  · unfold putPixel at h
    rw [Dec.pixWrite_none p he] at h
    cases h

theorem Dec.region_length_le (d : Dec) : d.region.length ≤ d.remaining := by
  simp only [Dec.region, Dec.remaining, List.length_drop, List.length_take]
  omega

theorem chunkStep_complete {s : State} (len : Nat) (e : Host.Outcome State Fault Refusal) (h : s.dec.inRegion)
    (hc : s.dec.count = pixelCount s.dec.cfg) : chunkStep len s e = .next (s.raiseDec .pixelCountMismatch) := by
  rw [chunkStep, if_pos h, if_pos hc]

theorem chunkStep_cut {s : State} (len : Nat) (e : Host.Outcome State Fault Refusal) (h : s.dec.inRegion)
    (hc : s.dec.count ≠ pixelCount s.dec.cfg) (hr : s.dec.remaining < len) :
    chunkStep len s e = .next (s.raiseDec .unexpectedEndOfStream) := by
  rw [chunkStep, if_pos h, if_neg hc, if_pos hr]

theorem chunkStep_ready {s : State} (len : Nat) (e : Host.Outcome State Fault Refusal) (h : s.dec.inRegion)
    (hc : s.dec.count ≠ pixelCount s.dec.cfg) (hr : len ≤ s.dec.remaining) : chunkStep len s e = e := by
  rw [chunkStep, if_pos h, if_neg hc, if_neg (by omega)]

theorem chunkStep_outside {s : State} (len : Nat) (e : Host.Outcome State Fault Refusal) (h : ¬s.dec.inRegion) :
    chunkStep len s e = .fault .chunkOutsideRegion := by
  rw [chunkStep, if_neg h]

/-- All that the checks of a chunk step can answer as a next state: an error, or the chunk's own effect. -/
theorem chunkStep_next {s t : State} {len : Nat} {e : Host.Outcome State Fault Refusal} (h : chunkStep len s e = .next t) :
    s.dec.inRegion ∧
      ((s.dec.count = pixelCount s.dec.cfg ∧ t = s.raiseDec .pixelCountMismatch) ∨
        (s.dec.count ≠ pixelCount s.dec.cfg ∧ s.dec.remaining < len ∧ t = s.raiseDec .unexpectedEndOfStream) ∨
        (s.dec.count ≠ pixelCount s.dec.cfg ∧ len ≤ s.dec.remaining ∧ e = .next t)) := by
  unfold chunkStep at h
  split_ifs at h with h1 h2 h3
  · injection h with h
    exact ⟨h1, .inl ⟨h2, h.symm⟩⟩
  · injection h with h
    exact ⟨h1, .inr (.inl ⟨h2, h3, h.symm⟩)⟩
  · exact ⟨h1, .inr (.inr ⟨h2, by omega, h⟩)⟩

/-- The bytes of a run (R166): those of `prev`, once per pixel. -/
def runBytes (d : Dec) (n : Nat) : List Byte := (List.replicate n (pixelBytes d.cfg.channels d.prev)).flatten

theorem Memory.writeBytes_append (xs ys : List Byte) (m : Memory) (a : Nat) :
    Memory.writeBytes m a (xs ++ ys) = Memory.writeBytes (Memory.writeBytes m a xs) (a + xs.length) ys := by
  induction xs generalizing m a with
  | nil => rfl
  | cons x xs ih =>
    simp only [List.cons_append, Memory.writeBytes, ih, List.length_cons]
    congr 1
    omega

/-- The countdown of a run, in one equation: the run's bytes at `count`, `count` up by the run, `run` down to 0. -/
theorem Dec.writeRun_eq (n : Nat) (d : Dec) (hch : d.cfg.channels = 3 ∨ d.cfg.channels = 4)
    (hn : d.count + n ≤ pixelCount d.cfg) :
    Dec.writeRun n d =
      some { d with
        count := d.count + n, run := if n = 0 then d.run else 0,
        outbuf := Memory.writeBytes d.outbuf (d.count * d.cfg.channels.toNat) (runBytes d n) } := by
  induction n generalizing d with
  | zero => rfl
  | succ n ih =>
    have he : pixelExists d.cfg d.count := ⟨by omega, hch⟩
    have hlen : d.count * d.cfg.channels.toNat + (pixelBytes d.cfg.channels d.prev).length =
        (d.count + 1) * d.cfg.channels.toNat := by
      rw [pixelBytes_length, Nat.add_mul, Nat.one_mul, toNat_channels hch]
    simp only [Dec.writeRun, Dec.pixWrite_eq d.prev he]
    have hn' : d.count + 1 + n ≤ pixelCount d.cfg := by omega
    rw [ih { d with
      outbuf := Memory.writeBytes d.outbuf (d.count * d.cfg.channels.toNat) (pixelBytes d.cfg.channels d.prev),
      count := d.count + 1, run := BitVec.ofNat 6 n } hch hn']
    simp only [runBytes, List.replicate_succ, List.flatten_cons, Memory.writeBytes_append, hlen]
    congr 2
    · cases n <;> rfl
    · omega

/-- A run that is written had its pixels: with no pixel to write, nothing is asked of the image. -/
theorem Dec.writeRun_some {n : Nat} {d d' : Dec} (h : Dec.writeRun n d = some d') :
    n = 0 ∨ (d.count + n ≤ pixelCount d.cfg ∧ (d.cfg.channels = 3 ∨ d.cfg.channels = 4)) := by
  induction n generalizing d with
  | zero => exact .inl rfl
  | succ n ih =>
    by_cases he : pixelExists d.cfg d.count
    · simp only [Dec.writeRun, Dec.pixWrite_eq d.prev he] at h
      rcases ih h with rfl | ⟨hc, hch⟩
      · exact .inr ⟨he.1, he.2⟩
      · refine .inr ⟨?_, hch⟩
        have : d.count + 1 + n ≤ pixelCount d.cfg := hc
        omega
    · simp [Dec.writeRun, Dec.pixWrite_none d.prev he] at h

theorem Dec.wf_writeRun {n : Nat} {d d' : Dec} (h : Dec.writeRun n d = some d') (hw : Memory.wf d.outbuf) :
    Memory.wf d'.outbuf := by
  induction n generalizing d with
  | zero =>
    cases h
    exact hw
  | succ n ih =>
    unfold Dec.writeRun at h
    split at h
    · cases h
    · rename_i d1 h1
      exact ih h (Dec.wf_pixWrite d d1 d.count d.prev h1 hw)

/-- All that the finish step can answer as a next state (R171). -/
theorem finishStep_next {s t : State} {markerOk : Bool} (h : finishStep s markerOk = .next t) :
    s.dec.atTrailer ∧
      ((s.dec.count ≠ pixelCount s.dec.cfg ∧ t = s.raiseDec .unexpectedEndOfStream) ∨
        (s.dec.count = pixelCount s.dec.cfg ∧ markerOk = true ∧ t = { s with dec := { s.dec with phase := .done } }) ∨
        (s.dec.count = pixelCount s.dec.cfg ∧ markerOk = false ∧ t = s.raiseDec .malformedEndMarker)) := by
  unfold finishStep at h
  split_ifs at h with h1 h2 h3
  · injection h with h
    exact ⟨h1, .inl ⟨h2, h.symm⟩⟩
  · injection h with h
    exact ⟨h1, .inr (.inl ⟨not_not.mp h2, h3, h.symm⟩)⟩
  · injection h with h
    exact ⟨h1, .inr (.inr ⟨not_not.mp h2, by simpa using h3, h.symm⟩)⟩

/-- All that executing a header can answer as a next state (R161). -/
theorem execHeader_next {cfg : ImageConfig} {s t : State} (h : execHeader cfg s = .next t) :
    s.dec.phase ≠ .busy ∧
      ((∃ k, configError cfg = some k ∧ t = s.raiseDec k) ∨
        (configError cfg = none ∧ s.dec.len < 22 ∧ t = s.raiseDec .unexpectedEndOfStream) ∨
        (configError cfg = none ∧ 22 ≤ s.dec.len ∧ t = { s with dec := s.dec.begin cfg })) := by
  by_cases hb : s.dec.phase = .busy
  · rw [execHeader, if_pos hb] at h
    cases h
  · rw [execHeader, if_neg hb] at h
    refine ⟨hb, ?_⟩
    cases hk : configError cfg with
    | some k =>
      simp only [hk] at h
      injection h with h
      exact .inl ⟨k, rfl, h.symm⟩
    | none =>
      simp only [hk] at h
      by_cases hl : s.dec.len < Config.headerLen + Config.endLen
      · rw [if_pos hl] at h
        injection h with h
        exact .inr (.inl ⟨rfl, hl, h.symm⟩)
      · rw [if_neg hl] at h
        injection h with h
        exact .inr (.inr ⟨rfl, Nat.not_lt.mp hl, h.symm⟩)

/-- The decoder after a run (R166). -/
def Dec.afterRun (d : Dec) (run : Nat) : Dec :=
  { d with
    count := d.count + run, run := 0, pos := d.pos + 1,
    outbuf := Memory.writeBytes d.outbuf (d.count * d.cfg.channels.toNat) (runBytes d run) }

theorem runBytes_length (d : Dec) (n : Nat) (h : d.cfg.channels = 3 ∨ d.cfg.channels = 4) :
    (runBytes d n).length = n * d.cfg.channels.toNat := by
  simp [runBytes, toNat_channels h]

/-- A ready chunk whose pixel goes into the cache, in one equation. -/
theorem putFreshPixel_ready {s : State} {len : Nat} (p : Pixel) (hr : s.dec.inRegion)
    (hc : s.dec.count < pixelCount s.dec.cfg) (hl : len ≤ s.dec.remaining)
    (hch : s.dec.cfg.channels = 3 ∨ s.dec.cfg.channels = 4) :
    chunkStep len s (putFreshPixel len s p) =
      .next { s with dec := s.dec.afterPixel len p (Cache.update s.dec.cache p) } := by
  rw [chunkStep_ready len _ hr (Nat.ne_of_lt hc) hl, putFreshPixel, putPixel_eq len p _ ⟨hc, hch⟩]

/-- All that a chunk of one pixel can answer as a next state: an error, or the common update. -/
theorem chunkStep_putPixel_next {s t : State} {len : Nat} {p : Pixel} {c : Cache}
    (h : chunkStep len s (putPixel len s p c) = .next t) :
    s.dec.inRegion ∧
      ((∃ k, t = s.raiseDec k) ∨
        (s.dec.count ≠ pixelCount s.dec.cfg ∧ pixelExists s.dec.cfg s.dec.count ∧ len ≤ s.dec.remaining ∧
          t = { s with dec := s.dec.afterPixel len p c })) := by
  obtain ⟨h0, ⟨_, h1⟩ | ⟨_, _, h1⟩ | ⟨h1, h2, h3⟩⟩ := chunkStep_next h
  · exact ⟨h0, .inl ⟨_, h1⟩⟩
  · exact ⟨h0, .inl ⟨_, h1⟩⟩
  · exact ⟨h0, .inr ⟨h1, (putPixel_next h3).1, h2, (putPixel_next h3).2⟩⟩

/-- All that `RLE` can answer as a next state: an error, or the whole run. -/
theorem execRle_next {run : Nat} {s t : State} (h : execRle run s = .next t) :
    s.dec.inRegion ∧
      ((∃ k, t = s.raiseDec k) ∨
        (s.dec.count ≠ pixelCount s.dec.cfg ∧ 1 ≤ s.dec.remaining ∧ s.dec.count + run ≤ pixelCount s.dec.cfg ∧
          (run = 0 ∨ s.dec.cfg.channels = 3 ∨ s.dec.cfg.channels = 4) ∧ t = { s with dec := s.dec.afterRun run })) := by
  obtain ⟨h0, ⟨_, h1⟩ | ⟨_, _, h1⟩ | ⟨h1, h2, h3⟩⟩ := chunkStep_next h
  · exact ⟨h0, .inl ⟨_, h1⟩⟩
  · exact ⟨h0, .inl ⟨_, h1⟩⟩
  · refine ⟨h0, ?_⟩
    split_ifs at h3 with hg
    · injection h3 with h3
      exact .inl ⟨_, h3.symm⟩
    · have hn : s.dec.count + run ≤ pixelCount s.dec.cfg := by omega
      split at h3
      · cases h3
      · rename_i d hd
        injection h3 with h3
        subst h3
        rcases Dec.writeRun_some hd with rfl | ⟨_, hch⟩
        · injection hd with hd
          subst hd
          exact .inr ⟨h1, h2, hn, .inl rfl, rfl⟩
        · rw [Dec.writeRun_eq run { s.dec with run := BitVec.ofNat 6 run } hch hn] at hd
          injection hd with hd
          subst hd
          refine .inr ⟨h1, h2, hn, .inr hch, ?_⟩
          by_cases hr : run = 0
          · subst hr
            rfl
          · simp only [if_neg hr]
            rfl

/-- A chunk of one pixel, in the form of `exec_chunk_next`. -/
theorem putPixel_chunk_next {len n : Nat} {s t : State} {p : Pixel} {c : Cache} {q : Prop} (hn : n = len)
    (hc : c = s.dec.cache ∨ c = Cache.update s.dec.cache p) (h : chunkStep len s (putPixel len s p c) = .next t) :
    s.dec.inRegion ∧
      ((∃ k, t = s.raiseDec k) ∨
        (s.dec.count ≠ pixelCount s.dec.cfg ∧ pixelExists s.dec.cfg s.dec.count ∧ n ≤ s.dec.remaining ∧
          ∃ p c, (c = s.dec.cache ∨ c = Cache.update s.dec.cache p) ∧ t = { s with dec := s.dec.afterPixel n p c }) ∨ q) := by
  subst hn
  obtain ⟨h0, h1 | ⟨h1, h2, h3, h4⟩⟩ := chunkStep_putPixel_next h
  · exact ⟨h0, .inl h1⟩
  · exact ⟨h0, .inr (.inl ⟨h1, h2, h3, p, c, hc, h4⟩)⟩

/-- All that a chunk can answer as a next state: an error, one pixel, or a run. -/
theorem exec_chunk_next {i : Instr} {s t : State} (hf : frameOf i = .chunk) (h : exec i s = .next t) :
    s.dec.inRegion ∧
      ((∃ k, t = s.raiseDec k) ∨
        (s.dec.count ≠ pixelCount s.dec.cfg ∧ pixelExists s.dec.cfg s.dec.count ∧ lengthOf i ≤ s.dec.remaining ∧
          ∃ p c, (c = s.dec.cache ∨ c = Cache.update s.dec.cache p) ∧
            t = { s with dec := s.dec.afterPixel (lengthOf i) p c }) ∨
        (s.dec.count ≠ pixelCount s.dec.cfg ∧ 1 ≤ s.dec.remaining ∧
          ∃ run, i = .rle run ∧ s.dec.count + run ≤ pixelCount s.dec.cfg ∧
            (run = 0 ∨ s.dec.cfg.channels = 3 ∨ s.dec.cfg.channels = 4) ∧ t = { s with dec := s.dec.afterRun run })) := by
  cases i with
  | rgb r g b => exact putPixel_chunk_next rfl (.inr rfl) h
  | rgba r g b a => exact putPixel_chunk_next rfl (.inr rfl) h
  | index slot => exact putPixel_chunk_next rfl (.inl rfl) h
  | diff dr dg db => exact putPixel_chunk_next rfl (.inr rfl) h
  | luma dg drg dbg => exact putPixel_chunk_next rfl (.inr rfl) h
  | rle run =>
    exact (execRle_next h).imp_right (Or.imp_right fun ⟨h1, h2, h3, h4, h5⟩ => .inr ⟨h1, h2, run, rfl, h3, h4, h5⟩)
  | header cfg => cases hf
  | endMarker => cases hf

end Sys2Proof.Machine
end

