-- ==== Sys2Proof/Laws/Encoding.lean ====
section
/-! SUPPORT. The lengths of the encoded forms, and how the decoder's parts read what stands at the front of the bytes. -/

namespace Sys2Proof

@[simp] theorem be32_length (v : BitVec 32) : (be32 v).length = 4 := rfl

@[simp] theorem magic_length : magic.length = 4 := rfl

@[simp] theorem endMarkerBytes_length : endMarkerBytes.length = 8 := rfl

theorem encode_ne_nil (i : Instr) : encode i ≠ [] := by
  cases i <;> simp [encode, magic, endMarkerBytes]

theorem lengthOf_pos (i : Instr) : 0 < lengthOf i := by
  cases i <;> simp [lengthOf, Config.headerLen, Config.endLen]

@[simp] theorem decodeChunk_rgb (rest : List Byte) : decodeChunk (0xFE :: rest) = decodeRgb rest := rfl

@[simp] theorem decodeChunk_rgba (rest : List Byte) : decodeChunk (0xFF :: rest) = decodeRgba rest := rfl

@[simp] theorem decodeTrailer_endMarker (rest : List Byte) :
    decodeTrailer (endMarkerBytes ++ rest) = .ok (.endMarker, rest) := rfl

/-- What a chunk's decoding answers when it does: nothing but a chunk. -/
theorem frameOf_of_decodeChunk {bs rest : List Byte} {i : Instr} (h : decodeChunk bs = .ok (i, rest)) :
    frameOf i = .chunk := by
  unfold decodeChunk at h
  split at h
  · cases h
  · rename_i t tail
    split_ifs at h
    · unfold decodeRgb at h
      split at h <;> cases h
      rfl
    · unfold decodeRgba at h
      split at h <;> cases h
      rfl
    · cases h
      rfl
    · cases h
      rfl
    · unfold decodeLuma at h
      split at h <;> cases h
      rfl
    · cases h
      rfl

end Sys2Proof
end

