-- ==== Sys2Proof/Laws/Step.lean ====
section
/-! SUPPORT. The step taken apart: whose step it is, and all that a decoder's step, an encoder's step, a start and an event
can answer as a next state. Later proofs about `step` start from `step_next`. -/

namespace Sys2Proof.Machine

theorem step_event {s : State} {e : Event} {rest : List Event} (h : s.agenda = e :: rest) :
    step s = handle e { s with agenda := rest } := by
  rw [step, h]

theorem step_turn {s : State} (h : s.agenda = []) : step s = runUnit (defaultUnit s) s := by
  rw [step, h]

theorem step_of_decTurn {s : State} {as : List Event} (h : s.decTurn as) : step s = decStep { s with agenda := as } := by
  rcases h with h | ⟨h, rfl, hb⟩
  · rw [step_event h]
    rfl
  · rw [step_turn h, defaultUnit, if_pos hb, ← h]
    rfl

theorem step_of_encTurn {s : State} {as : List Event} (h : s.encTurn as) : step s = encStep { s with agenda := as } := by
  rcases h with h | ⟨h, rfl, hb⟩
  · rw [step_event h]
    rfl
  · rw [step_turn h, defaultUnit, if_neg hb, ← h]
    rfl

/-- A decoder that is not `BUSY` waits. -/
theorem decStep_waits {s : State} (h : s.dec.phase ≠ .busy) : decStep s = .next s := by
  unfold decStep
  split
  · exact absurd ‹_› h
  all_goals rfl

/-- An encoder that is not `BUSY` waits. -/
theorem encStep_waits {s : State} (h : s.enc.phase ≠ .busy) : encStep s = .next s := by
  unfold encStep
  split
  · exact absurd ‹_› h
  all_goals rfl

/-- Whose step a step is: the decoder's turn, the encoder's turn, or another event of the agenda. -/
theorem step_next {s t : State} (h : step s = .next t) :
    (∃ as, s.decTurn as ∧ decStep { s with agenda := as } = .next t) ∨
      (∃ as, s.encTurn as ∧ encStep { s with agenda := as } = .next t) ∨
      (∃ e as, s.agenda = e :: as ∧ handle e { s with agenda := as } = .next t ∧ e ≠ .run .dec ∧ e ≠ .run .enc) := by
  cases ha : s.agenda with
  | nil =>
    by_cases hb : s.dec.phase = .busy
    · have ht : s.decTurn [] := .inr ⟨ha, rfl, hb⟩
      exact .inl ⟨[], ht, step_of_decTurn ht ▸ h⟩
    · have ht : s.encTurn [] := .inr ⟨ha, rfl, hb⟩
      exact .inr (.inl ⟨[], ht, step_of_encTurn ht ▸ h⟩)
  | cons e as =>
    rw [step_event ha] at h
    by_cases h1 : e = .run .dec
    · subst h1
      exact .inl ⟨as, .inl ha, h⟩
    · by_cases h2 : e = .run .enc
      · subst h2
        exact .inr (.inl ⟨as, .inl ha, h⟩)
      · exact .inr (.inr ⟨e, as, rfl, h, h1, h2⟩)

/-- All that a decoder's step can answer as a next state. -/
theorem decStep_next {s t : State} (h : decStep s = .next t) :
    (s.dec.phase ≠ .busy ∧ t = s) ∨
      (s.dec.inRegion ∧ ∃ i rest, frameOf i = .chunk ∧ decode .chunk s.dec.region = .ok (i, rest) ∧ exec i s = .next t) ∨
      (s.dec.inRegion ∧ (∃ r, decode .chunk s.dec.region = .error r) ∧
        t = s.raiseDec (if s.dec.count = pixelCount s.dec.cfg then .pixelCountMismatch else .unexpectedEndOfStream)) ∨
      (s.dec.atTrailer ∧ ∃ markerOk, finishStep s markerOk = .next t) := by
  by_cases hb : s.dec.phase = .busy
  · right
    unfold decStep at h
    simp only [hb] at h
    split_ifs at h with h1 h2
    · cases hd : decode .chunk s.dec.region with
      | ok x =>
        obtain ⟨i, rest⟩ := x
        simp only [hd] at h
        exact .inl ⟨⟨hb, h1⟩, i, rest, frameOf_of_decodeChunk hd, rfl, h⟩
      | error r =>
        simp only [hd, cutChunk] at h
        refine .inr (.inl ⟨⟨hb, h1⟩, ⟨r, rfl⟩, ?_⟩)
        split_ifs at h ⊢ <;> exact (Host.Outcome.next.inj h).symm
    · refine .inr (.inr ⟨⟨hb, h2⟩, ?_⟩)
      simp only [decode, decodeTrailer] at h
      split_ifs at h with h3
      · exact ⟨true, h⟩
      · exact ⟨false, h⟩
  · rw [decStep_waits hb] at h
    exact .inl ⟨hb, (Host.Outcome.next.inj h).symm⟩

/-- A decoder's step touches the decoder alone. -/
theorem decStep_frame {s t : State} (h : decStep s = .next t) : t.hdr = s.hdr ∧ t.enc = s.enc ∧ t.agenda = s.agenda := by
  rcases decStep_next h with ⟨_, rfl⟩ | ⟨_, i, _, hf, _, he⟩ | ⟨_, _, rfl⟩ | ⟨_, m, hm⟩
  · exact ⟨rfl, rfl, rfl⟩
  · rcases (exec_chunk_next hf he).2 with ⟨k, rfl⟩ | ⟨_, _, _, p, c, _, rfl⟩ | ⟨_, _, run, _, _, _, rfl⟩
    · exact ⟨rfl, rfl, rfl⟩
    · exact ⟨rfl, rfl, rfl⟩
    · exact ⟨rfl, rfl, rfl⟩
  · exact ⟨rfl, rfl, rfl⟩
  · rcases (finishStep_next hm).2 with ⟨_, rfl⟩ | ⟨_, _, rfl⟩ | ⟨_, _, rfl⟩
    · exact ⟨rfl, rfl, rfl⟩
    · exact ⟨rfl, rfl, rfl⟩
    · exact ⟨rfl, rfl, rfl⟩

/-- Decoding a header, in step with `HDR_DEC`. -/
theorem decode_start_cases (bytes : List Byte) :
    (∃ r, decode .start bytes = .error r ∧ hdrDec bytes = .error (rejectKind r)) ∨
      ∃ cfg rest, decode .start bytes = .ok (.header cfg, rest) ∧
        hdrDec bytes = (match configError cfg with | some k => .error k | none => .ok cfg) := by
  cases h : decodeHeader bytes with
  | error r => exact .inl ⟨r, by simp [decode, h, Except.map], by simp [hdrDec, h]⟩
  | ok x =>
    obtain ⟨cfg, rest⟩ := x
    refine .inr ⟨cfg, rest, by simp [decode, h, Except.map], ?_⟩
    cases hc : configError cfg <;> simp [hdrDec, h, hc]

/-- All that the decoder's start step can answer as a next state. -/
theorem decStart_next {s t : State} {bytes : List Byte} (h : decStart bytes s = .next t) :
    (∃ k, hdrDec bytes = .error k ∧ t = (s.latchStream bytes).raiseDec k) ∨
      (∃ cfg, hdrDec bytes = .ok cfg ∧ bytes.length < 22 ∧ t = (s.latchStream bytes).raiseDec .unexpectedEndOfStream) ∨
      (∃ cfg, hdrDec bytes = .ok cfg ∧ configError cfg = none ∧ 22 ≤ bytes.length ∧
        t = { s with dec := (s.latchStream bytes).dec.begin cfg }) := by
  unfold decStart at h
  rcases decode_start_cases bytes with ⟨r, h1, h2⟩ | ⟨cfg, rest, h1, h2⟩
  · simp only [h1] at h
    exact .inl ⟨_, h2, (Host.Outcome.next.inj h).symm⟩
  · simp only [h1] at h
    rcases (execHeader_next (h : execHeader cfg _ = _)).2 with ⟨k, hk, rfl⟩ | ⟨hk, hl, rfl⟩ | ⟨hk, hl, rfl⟩
    · rw [hk] at h2
      exact .inl ⟨k, h2, rfl⟩
    · rw [hk] at h2
      exact .inr (.inl ⟨cfg, h2, hl, rfl⟩)
    · rw [hk] at h2
      exact .inr (.inr ⟨cfg, h2, hk, hl, rfl⟩)

/-- The decoder's start touches the decoder alone. -/
theorem decStart_frame {s t : State} {bytes : List Byte} (h : decStart bytes s = .next t) :
    t.hdr = s.hdr ∧ t.enc = s.enc ∧ t.agenda = s.agenda := by
  rcases decStart_next h with ⟨_, _, rfl⟩ | ⟨_, _, _, rfl⟩ | ⟨_, _, _, _, rfl⟩
  · exact ⟨rfl, rfl, rfl⟩
  · exact ⟨rfl, rfl, rfl⟩
  · exact ⟨rfl, rfl, rfl⟩

/-- All that an encoder's step can answer as a next state. -/
theorem encStep_next {s t : State} (h : encStep s = .next t) :
    (s.enc.phase ≠ .busy ∧ t = s) ∨
      (s.enc.phase = .busy ∧ s.enc.count < pixelCount s.enc.cfg ∧
        ∃ p, s.enc.pixRead s.enc.count = some p ∧ t = { s with enc := s.enc.takePixel p }) ∨
      (s.enc.phase = .busy ∧ s.enc.count = pixelCount s.enc.cfg ∧ t = { s with enc := s.enc.finish }) := by
  by_cases hb : s.enc.phase = .busy
  · right
    unfold encStep at h
    simp only [hb] at h
    split_ifs at h with h1 h2
    · cases hp : s.enc.pixRead s.enc.count with
      | none => simp [hp] at h
      | some p =>
        simp only [hp] at h
        exact .inl ⟨hb, h1, p, rfl, (Host.Outcome.next.inj h).symm⟩
    · exact .inr ⟨hb, h2, (Host.Outcome.next.inj h).symm⟩
  · rw [encStep_waits hb] at h
    exact .inl ⟨hb, (Host.Outcome.next.inj h).symm⟩

/-- The two outcomes of the encoder's start step (R131). -/
theorem Enc.start_cases (e : Enc) (cfg : ImageConfig) (pixels : List Byte) :
    (∃ k, e.start cfg pixels = Enc.raise { e with err := none } k) ∨
      (configError cfg = none ∧ pixels.length = bufferLength cfg ∧
        e.start cfg pixels = { e with
          err := none, cfg := cfg, pixels := pixels, cache := Cache.init, prev := Config.prevInit, run := 0, count := 0,
          out := encode (.header cfg), phase := .busy }) := by
  unfold Enc.start hdrEnc
  cases hc : configError cfg with
  | some k => exact .inl ⟨k, rfl⟩
  | none =>
    simp only
    split_ifs with hl
    · exact .inl ⟨_, rfl⟩
    · exact .inr ⟨trivial, not_not.mp hl, rfl⟩

theorem Enc.flushRun_fields (e : Enc) : e.flushRun = { e with out := e.flushRun.out, run := 0 } := by
  unfold Enc.flushRun
  split_ifs with h
  · cases e
    subst h
    rfl
  · rfl

theorem Enc.extendRun_fields (e : Enc) (last : Bool) :
    e.extendRun last = { e with out := (e.extendRun last).out, run := (e.extendRun last).run } := by
  unfold Enc.extendRun
  dsimp only
  split_ifs <;> rfl

/-- A pixel step writes `out`, `run`, `cache`, `prev` and `count`, and no other register. -/
theorem Enc.takePixel_fields (e : Enc) (p : Pixel) :
    ∃ out run cache prev,
      e.takePixel p = { e with out := out, run := run, cache := cache, prev := prev, count := e.count + 1 } := by
  unfold Enc.takePixel
  dsimp only
  split_ifs
  · rw [Enc.extendRun_fields e]
    exact ⟨_, _, e.cache, e.prev, rfl⟩
  · rw [Enc.flushRun_fields e]
    unfold Enc.codePixel
    split_ifs
    · exact ⟨_, _, e.cache, p, rfl⟩
    · exact ⟨_, _, _, p, rfl⟩

end Sys2Proof.Machine
end

