-- ==== Sys2Proof/Laws/Encoder.lean ====
section
/-! SUPPORT. The encoder's operations in one equation each: the byte of a run, the flush, the pixel step. -/

namespace Sys2Proof.Machine

theorem encode_rle_byte (run : BitVec 6) (h : run ≠ 0) :
    encode (.rle run.toNat) = [BitVec.ofNat 8 (0xC0 + (run.toNat - 1))] := by
  revert run
  decide

theorem encode_index_byte (slot : BitVec 6) : encode (.index slot) = [BitVec.ofNat 8 slot.toNat] := by
  revert slot
  decide

/-- The flush (R134): the pending run's byte, if there is one, and `run` 0. -/
theorem Enc.flushRun_eq (e : Enc) : e.flushRun = { e with out := e.out ++ runFlush e.run, run := 0 } := by
  unfold Enc.flushRun runFlush
  by_cases h : e.run = 0
  · rw [if_pos h, if_pos h, List.append_nil]
    cases e
    subst h
    rfl
  · rw [if_neg h, if_neg h, ← encode_rle_byte e.run h]
    rfl

/-- A pixel that the encoder reads is there to be read. -/
theorem Enc.count_lt_of_pixRead {e : Enc} {i : Nat} {p : Pixel} (h : e.pixRead i = some p) : pixelExists e.cfg i := by
  unfold Enc.pixRead at h
  split_ifs at h with he
  exact he

/-- The pixel step of the block, in one equation. -/
theorem step_of_pixelTurn {s : State} {rest : List Event} {p : Pixel} (h : s.pixelTurn rest p) :
    step s = .next { s with agenda := rest, enc := s.enc.takePixel p } := by
  obtain ⟨ht, hb, hp⟩ := h
  rw [step_of_encTurn ht, encStep]
  simp only [hb]
  rw [if_pos (Enc.count_lt_of_pixRead hp).1]
  simp only [hp]

end Sys2Proof.Machine
end

