-- ==== Sys2Proof/Laws/History.lean ====
section
/-! SUPPORT. The chunks of an operation, one more at a time: their bytes, and the chunk that wrote `prev` last (R27). -/

namespace Sys2Proof.Machine

@[simp] theorem chunkBytes_nil : chunkBytes [] = [] := rfl

@[simp] theorem chunkBytes_append (chunks more : List Instr) :
    chunkBytes (chunks ++ more) = chunkBytes chunks ++ chunkBytes more := by
  simp [chunkBytes]

@[simp] theorem chunkBytes_single (i : Instr) : chunkBytes [i] = encode i := by
  simp [chunkBytes]

theorem areChunks_append {chunks more : List Instr} (h : areChunks chunks) (h' : areChunks more) :
    areChunks (chunks ++ more) := fun i hi => (List.mem_append.mp hi).elim (h i) (h' i)

@[simp] theorem prevWriter_nil : prevWriter [] = none := rfl

/-- A chunk that writes `prev` is the last that did. -/
theorem prevWriter_append_writer {i : Instr} (chunks : List Instr) (h : writesPrev i = true) :
    prevWriter (chunks ++ [i]) = some i := by
  simp [prevWriter, h]

/-- A run leaves `prev` as the chunks before it left it. -/
@[simp] theorem prevWriter_append_rle (chunks : List Instr) (run : Nat) :
    prevWriter (chunks ++ [.rle run]) = prevWriter chunks := by
  simp [prevWriter, writesPrev]

/-- A pixel just written to the cache is held there. -/
theorem prevCached_update (cache : Cache) (p : Pixel) : prevCached (Cache.update cache p) p :=
  Cache.read_update_same cache p

end Sys2Proof.Machine
end

