-- ==== Sys2Proof/Laws/PerInstr.lean ====
section
/-! SUPPORT. A statement for all instructions, one lemma per constructor: the encoded form of an instruction has the length
the format gives its kind, whatever its fields (spec/30_encoding.md R61, R62, R64). -/

namespace Sys2Proof.Laws.EncodedLength

/-- The encoded form has the length of R61, R62, R64. -/
def Statement (i : Instr) : Prop := (encode i).length = lengthOf i

theorem rgb (r g b : Byte) : Statement (.rgb r g b) := rfl
theorem rgba (r g b a : Byte) : Statement (.rgba r g b a) := rfl
theorem index (slot : BitVec 6) : Statement (.index slot) := rfl
theorem diff (dr dg db : Int) : Statement (.diff dr dg db) := rfl
theorem luma (dg drg dbg : Int) : Statement (.luma dg drg dbg) := rfl
theorem rle (run : Nat) : Statement (.rle run) := rfl
theorem header (cfg : ImageConfig) : Statement (.header cfg) := rfl
theorem endMarker : Statement .endMarker := rfl

end Sys2Proof.Laws.EncodedLength
end

