-- ==== Sys2Proof/Tests/Slice0.lean ====
section
/-! SUPPORT. The model's own tests: the checks of `WellFormed`, one hand-written word per constructor, one or two single
steps per instruction, and a witness for the hypotheses of every statement. Expected values are those of
spec/95_test_vectors.md (T, P) and of the examples in spec/30_encoding.md; a witness's state is no claim. -/

namespace Sys2Proof.Tests

open Sys2Proof Sys2Proof.Machine

/-! Small states -/

/-- The state a step answers, if it answers one. -/
def after {α : Type} (o : Host.Outcome State Fault Refusal) (f : State → α) : Option α :=
  match o with
  | .next t => some (f t)
  | .fault _ => none
  | .refused _ => none

/-- A decoder that has just started on `HEADER`, a body and the end marker. -/
def decoding (cfg : ImageConfig) (body : List Byte) : State :=
  let stream := encode (.header cfg) ++ body ++ endMarkerBytes
  { State.reset with dec := { Dec.reset with bytes := stream, len := stream.length }.begin cfg }

/-- The same decoder with other values in `prev`, `count` and `pos`. -/
def decodingAt (cfg : ImageConfig) (body : List Byte) (prev : Pixel) (count pos : Nat) : State :=
  let s := decoding cfg body
  { s with dec := { s.dec with prev := prev, count := count, pos := pos } }

/-- An encoder that has just started. -/
def encoding (cfg : ImageConfig) (pixels : List Byte) : State :=
  { State.reset with enc := Enc.reset.start cfg pixels }

/-- A block with one command coming. -/
def commanded (e : Event) : State := { State.reset with agenda := [e] }

/-- The pixel and the byte slice of the output that an instruction of one pixel leaves. -/
def onePixel (i : Instr) (s : State) : Option (Pixel × Nat × Nat × Option (List Byte)) :=
  after (exec i s) fun t =>
    (t.dec.prev, t.dec.count, t.dec.pos, Memory.readBytes t.dec.outbuf 0 t.dec.cfg.channels.toNat)

/-! Well-formedness: an ill-formed term for each check -/

theorem test_wf_diff_dr : ¬(Instr.diff 2 0 0).WellFormed := by decide
theorem test_wf_diff_dg : ¬(Instr.diff 0 (-3) 0).WellFormed := by decide
theorem test_wf_diff_db : ¬(Instr.diff 0 0 2).WellFormed := by decide
theorem test_wf_luma_dg : ¬(Instr.luma 32 0 0).WellFormed := by decide
theorem test_wf_luma_drg : ¬(Instr.luma 0 (-9) 0).WellFormed := by decide
theorem test_wf_luma_dbg : ¬(Instr.luma 0 0 8).WellFormed := by decide
theorem test_wf_rle_zero : ¬(Instr.rle 0).WellFormed := by decide
theorem test_wf_rle_long : ¬(Instr.rle 63).WellFormed := by decide
theorem test_wf_bounds : (Instr.diff (-2) 1 (-2)).WellFormed ∧ (Instr.luma (-32) 7 (-8)).WellFormed ∧
    (Instr.luma 31 (-8) 7).WellFormed ∧ (Instr.rle 62).WellFormed := by decide

/-! Decoding: a word per constructor, written out from the encoding tables -/

/-- T52: `FE 0A 14 1E`. -/
theorem test_word_rgb : decode .chunk [0xFE, 0x0A, 0x14, 0x1E] = .ok (.rgb 10 20 30, []) := by decide
/-- T53: `FF 00 00 00 80`. -/
theorem test_word_rgba : decode .chunk [0xFF, 0x00, 0x00, 0x00, 0x80] = .ok (.rgba 0 0 0 128, []) := by decide
/-- R65: `00 110101` is slot 53 (T33a: `35`). -/
theorem test_word_index : decode .chunk [0b00110101] = .ok (.index 53, []) := by decide
/-- R66: `01 01 10 11` is `(-1, 0, 1)`. -/
theorem test_word_diff : decode .chunk [0b01011011] = .ok (.diff (-1) 0 1, []) := by decide
/-- T39: `B0 36`, that is `10 110000`, `0011 0110`. -/
theorem test_word_luma : decode .chunk [0b10110000, 0b00110110] = .ok (.luma 16 (-5) (-2), []) := by decide
/-- T28: `FC`, that is `11 111100`. -/
theorem test_word_rle : decode .chunk [0b11111100] = .ok (.rle 61, []) := by decide
/-- T2's bytes with T8's numbers. -/
theorem test_word_header :
    decode .start [0x71, 0x6F, 0x69, 0x66, 1, 2, 3, 4, 10, 11, 12, 13, 3, 1] =
      .ok (.header ⟨16909060, 168496141, 3, 1⟩, []) := by decide
/-- R62. -/
theorem test_word_end : decode .trailer [0, 0, 0, 0, 0, 0, 0, 1] = .ok (.endMarker, []) := by decide
/-- R63: `FE` and `FF` are no runs; T78: they need their bytes. T9, T10, T72: the two literals. -/
theorem test_word_rejects :
    decode .chunk [0xFE, 1, 2] = .error .truncatedChunk ∧ decode .chunk [0xFF, 1, 2, 3] = .error .truncatedChunk ∧
      decode .chunk [0xA0] = .error .truncatedChunk ∧ decode .start [0x71, 0x6F, 0x69] = .error .truncatedHeader ∧
      decode .start [0x71, 0x6F, 0x69, 0x46, 0, 0, 0, 1, 0, 0, 0, 1, 4, 0] = .error .badMagic ∧
      decode .trailer [0, 0, 0, 0, 0, 0, 0, 2] = .error .malformedEndMarker := by decide

/-- Words as spec/opcode_table.json numbers them: the first byte in bits 7..0, operand bytes of zeros left out. -/
theorem test_table_words :
    decodeTableWord 8 0xFE = some (.rgb 0 0 0) ∧ decodeTableWord 8 0xFF = some (.rgba 0 0 0 0) ∧
      decodeTableWord 8 0x1F = some (.index 31) ∧ decodeTableWord 8 0x76 = some (.diff 1 (-1) 0) ∧
      decodeTableWord 16 0x0F80 = some (.luma (-32) (-8) 7) ∧ decodeTableWord 8 0xFD = some (.rle 62) ∧
      decodeTableWord 32 0x716F6966 = some (.header ⟨0, 0, 0, 0⟩) ∧ decodeTableWord 64 1 = some .endMarker := by decide

/-! One step -/

/-- T52. -/
theorem test_rgb : onePixel (.rgb 10 20 30) (decoding ⟨1, 1, 3, 1⟩ [0xFE, 10, 20, 30]) =
    some (⟨10, 20, 30, 255⟩, 1, 18, some [10, 20, 30]) := by decide
/-- T83: alpha is inherited. -/
theorem test_rgb_alpha : onePixel (.rgb 9 9 9) (decodingAt ⟨2, 1, 4, 0⟩ [0xFE, 9, 9, 9] ⟨1, 2, 3, 4⟩ 0 14) =
    some (⟨9, 9, 9, 4⟩, 1, 18, some [9, 9, 9, 4]) := by decide
/-- P5: alpha is tracked, and not written, in a 3-channel stream. -/
theorem test_rgba : onePixel (.rgba 9 8 7 128) (decoding ⟨3, 1, 3, 0⟩ [0xFF, 9, 8, 7, 128]) =
    some (⟨9, 8, 7, 128⟩, 1, 19, some [9, 8, 7]) := by decide
/-- P5: slot 52 is written. -/
theorem test_rgba_slot :
    after (exec (.rgba 9 8 7 128) (decoding ⟨3, 1, 3, 0⟩ [0xFF, 9, 8, 7, 128]))
      (fun t => Cache.read t.dec.cache 52) = some ⟨9, 8, 7, 128⟩ := by decide
/-- T81: an untouched slot. -/
theorem test_index : onePixel (.index 5) (decoding ⟨2, 1, 4, 0⟩ [0x05]) =
    some (⟨0, 0, 0, 0⟩, 1, 15, some [0, 0, 0, 0]) := by decide
/-- T42: the green component wraps. -/
theorem test_diff_wraps : onePixel (.diff 1 (-1) 0) (decoding ⟨1, 1, 4, 0⟩ [0x76]) =
    some (⟨1, 255, 0, 255⟩, 1, 15, some [1, 255, 0, 255]) := by decide
/-- T42: slot 51 is written. -/
theorem test_diff_slot :
    after (exec (.diff 1 (-1) 0) (decoding ⟨1, 1, 4, 0⟩ [0x76])) (fun t => Cache.read t.dec.cache 51) =
      some ⟨1, 255, 0, 255⟩ := by decide
/-- T39, second pixel. -/
theorem test_luma_wraps :
    onePixel (.luma 16 (-5) (-2)) (decodingAt ⟨2, 1, 3, 0⟩ [0xB0, 0x36] ⟨250, 250, 250, 255⟩ 0 14) =
      some (⟨5, 10, 8, 255⟩, 1, 16, some [5, 10, 8]) := by decide
/-- T78: the second byte would lie in the trailer. -/
theorem test_luma_cut :
    after (exec (.luma 0 0 0) (decoding ⟨1, 1, 4, 0⟩ [0xA0])) (fun t => (t.dec.phase, t.dec.err)) =
      some (.error, some .unexpectedEndOfStream) := by decide
/-- T76: a run that fills the image. -/
theorem test_rle :
    after (exec (.rle 3) (decoding ⟨3, 1, 4, 0⟩ [0xC2]))
      (fun t => (t.dec.count, t.dec.pos, Memory.readBytes t.dec.outbuf 0 12)) =
      some (3, 15, some [0, 0, 0, 255, 0, 0, 0, 255, 0, 0, 0, 255]) := by decide
/-- P6: a run that passes the image. -/
theorem test_rle_overshoot :
    after (exec (.rle 3) (decoding ⟨2, 1, 4, 0⟩ [0xC2])) (fun t => (t.dec.phase, t.dec.err, t.dec.count)) =
      some (.error, some .pixelCountMismatch, 0) := by decide

/-- T82's header: the decoder starts at offset 14 with the start values of R221. -/
theorem test_header :
    after (exec (.header ⟨3, 1, 3, 0⟩) { State.reset with dec := { Dec.reset with len := 22 } })
      (fun t => (t.dec.phase, t.dec.cfg, t.dec.pos, t.dec.prev)) = some (.busy, ⟨3, 1, 3, 0⟩, 14, ⟨0, 0, 0, 255⟩) := by
  decide
/-- T64: channels 5 and colorspace 2 together raise the first in order. -/
theorem test_header_order :
    after (exec (.header ⟨1, 1, 5, 2⟩) State.reset) (fun t => (t.dec.phase, t.dec.err)) =
      some (.error, some .invalidChannelCount) := by decide
/-- T20's last step. -/
theorem test_end :
    after (exec .endMarker (decodingAt ⟨1, 1, 4, 0⟩ [0xC0] ⟨0, 0, 0, 255⟩ 1 15)) (fun t => t.dec.phase) = some .done := by
  decide
/-- T77: two pixels of three. -/
theorem test_end_short :
    after (exec .endMarker (decodingAt ⟨3, 1, 4, 0⟩ [0xC1] ⟨0, 0, 0, 255⟩ 2 15)) (fun t => t.dec.err) =
      some (some .unexpectedEndOfStream) := by decide

/-- What the next step does with the host's words, placed after reset: each runs as the first instruction. -/
theorem test_placed :
    after (step (State.reset.withFetchWord 8 0xFE)) (fun t => t.dec.prev) = some ⟨0, 0, 0, 255⟩ ∧
      after (step (State.reset.withFetchWord 8 0xFF)) (fun t => t.dec.prev) = some ⟨0, 0, 0, 0⟩ ∧
      after (step (State.reset.withFetchWord 8 0x76)) (fun t => t.dec.prev) = some ⟨1, 255, 0, 255⟩ ∧
      after (step (State.reset.withFetchWord 8 0xFD)) (fun t => t.dec.count) = some 62 ∧
      after (step (State.reset.withFetchWord 32 0x716F6966)) (fun t => t.dec.err) = some (some .invalidDimension) ∧
      after (step (State.reset.withFetchWord 64 1)) (fun t => t.dec.phase) = some .done := by decide

/-- T36's third pixel: `INDEX` before `DIFF`. T45: `LUMA` when `DIFF` fails. T49 and T53: the literals. -/
theorem test_encoder_choice :
    ((encoding ⟨1, 1, 4, 0⟩ [2, 2, 2, 255]).enc.takePixel ⟨2, 2, 2, 255⟩).out.drop 14 = [0xA2, 0x88] ∧
      ((encoding ⟨1, 1, 4, 0⟩ [32, 32, 32, 255]).enc.takePixel ⟨32, 32, 32, 255⟩).out.drop 14 = [0xFE, 32, 32, 32] ∧
      ((encoding ⟨1, 1, 4, 0⟩ [0, 0, 0, 128]).enc.takePixel ⟨0, 0, 0, 128⟩).out.drop 14 = [0xFF, 0, 0, 0, 128] := by decide

/-- T19, T19a, T19b, T19c. -/
theorem test_arithmetic :
    slotHash ⟨1, 0, 0, 255⟩ = 56 ∧ slotHash ⟨0, 2, 63, 255⟩ = 56 ∧ s8 (0 - 255) = 1 ∧ s8 (128 - 0) = -128 ∧
      applyDiff ⟨255, 0, 255, 255⟩ 1 (-1) 1 = ⟨0, 255, 0, 255⟩ ∧
      applyLuma ⟨250, 250, 250, 255⟩ 16 (-5) (-2) = ⟨5, 10, 8, 255⟩ := by decide

/-- `ENCODE` and `DECODE` on T35, and T80's error. -/
theorem test_whole :
    encodeImage ⟨3, 1, 3, 0⟩ [1, 0, 0, 0, 2, 63, 1, 0, 0] =
        .ok (encode (.header ⟨3, 1, 3, 0⟩) ++ [0x7A, 0xFE, 0, 2, 0x3F, 0xFE, 1, 0, 0] ++ endMarkerBytes) ∧
      decodeStream (encode (.header ⟨3, 1, 3, 0⟩) ++ [0x7A, 0xFE, 0, 2, 0x3F, 0xFE, 1, 0, 0] ++ endMarkerBytes) =
        .ok ⟨⟨3, 1, 3, 0⟩, [1, 0, 0, 0, 2, 63, 1, 0, 0]⟩ ∧
      decodeStream (encode (.header ⟨1, 1, 4, 0⟩) ++ [0xC0, 0xFE] ++ endMarkerBytes) = .error .pixelCountMismatch := by
  decide

/-! Witnesses: for each statement with hypotheses, a state and operands that meet all of them together -/

/-- An outcome whose next state has a decidable property. -/
theorem next_of_after {o : Host.Outcome State Fault Refusal} {P : State → Prop} [DecidablePred P]
    (h : after o (fun t => decide (P t)) = some true) : ∃ t, o = .next t ∧ P t := by
  cases o with
  | next t => exact ⟨t, rfl, by simpa [after] using h⟩
  | fault r => cases h
  | refused r => cases h

/-- A 2x1 image and a body of two `DIFF` chunks. -/
def twoDiffs : State := decoding ⟨2, 1, 4, 0⟩ [0x6A, 0x6A]

/-- A one-pixel decode before its only chunk. -/
def oneRun : State := decoding ⟨1, 1, 4, 0⟩ [0xC0]

/-- The same decode at its end. -/
def oneRunEnd : State := decodingAt ⟨1, 1, 4, 0⟩ [0xC0] ⟨0, 0, 0, 255⟩ 1 15

/-- The same end with the last byte of the marker 02 (T72). -/
def damagedEnd : State :=
  { oneRunEnd with dec := { oneRunEnd.dec with bytes := oneRunEnd.dec.bytes.take 22 ++ [2] } }

/-- A block whose three units are in `ERROR`, with one command coming. -/
def errored (e : Event) : State :=
  { State.reset with
    hdr := { Hdr.reset with phase := .error, err := some .badMagic }
    enc := { Enc.reset with phase := .error, err := some .invalidDimension }
    dec := { Dec.reset with phase := .error, err := some .pixelCountMismatch }
    agenda := [e] }

/-- `s` with a turn given to the decoder. -/
def withTurn (s : State) : State := { s with agenda := [.run .dec] }

theorem test_witness_DecodeOfEncode :
    (Instr.luma 31 (-8) 7).WellFormed ∧ (Instr.diff (-2) 1 0).WellFormed ∧ (Instr.rle 1).WellFormed ∧
      (Instr.rle 62).WellFormed := by decide

theorem test_witness_EncodeOfDecode : decode .chunk [0x80, 0x0F, 7] = .ok (.luma (-32) (-8) 7, [7]) := by decide

theorem test_witness_FirstByteSelectsChunk : 4 ≤ ([1, 2, 3, 4] : List Byte).length := by decide

theorem test_witness_HeaderRoundTrip :
    hdrEnc ⟨1, 1, 4, 0⟩ = .ok [0x71, 0x6F, 0x69, 0x66, 0, 0, 0, 1, 0, 0, 0, 1, 4, 0] ∧
      hdrDec [0x71, 0x6F, 0x69, 0x66, 0, 0, 0, 1, 0, 0, 0, 1, 4, 0] = .ok ⟨1, 1, 4, 0⟩ := by decide

theorem test_witness_HdrEncChecksInOrder :
    (commanded (.hdrEnc ⟨1, 1, 4, 1⟩)).agenda = .hdrEnc ⟨1, 1, 4, 1⟩ :: [] ∧
      (commanded (.hdrEnc ⟨0, 1, 2, 9⟩)).agenda = .hdrEnc ⟨0, 1, 2, 9⟩ :: [] := by decide

theorem test_witness_HdrDecChecksInOrder :
    (commanded (.hdrDec [0x71])).agenda = .hdrDec [0x71] :: [] ∧
      (commanded (.hdrDec (encode (.header ⟨1, 1, 4, 1⟩)))).agenda = .hdrDec (encode (.header ⟨1, 1, 4, 1⟩)) :: [] := by decide

/-- The ends of the ranges of first bytes, as the operand clauses of the chunk statements have them. -/
theorem test_witness_operands :
    (0x3F : Byte).toNat ≤ 0x3F ∧ (0x40 ≤ (0x40 : Byte).toNat ∧ (0x7F : Byte).toNat ≤ 0x7F) ∧
      (0x80 ≤ (0x80 : Byte).toNat ∧ (0xBF : Byte).toNat ≤ 0xBF) ∧
      (0xC0 ≤ (0xC0 : Byte).toNat ∧ (0xFD : Byte).toNat ≤ 0xFD) := by decide

/-- The region's last byte, and the image's last pixel. -/
theorem test_witness_IndexWritesSlotPixel :
    oneRun.dec.readyFor 1 ∧ oneRun.dec.remaining = 1 ∧ oneRun.dec.count + 1 = pixelCount oneRun.dec.cfg := by decide

theorem test_witness_DiffAddsDeltas : twoDiffs.dec.readyFor 1 := by decide

/-- One byte left and two bytes left. -/
theorem test_witness_LumaAddsDifferences :
    (let d := (decoding ⟨1, 1, 4, 0⟩ [0xA0]).dec; d.inRegion ∧ d.count < pixelCount d.cfg ∧ d.remaining = 1) ∧
      (let d := (decoding ⟨1, 1, 3, 0⟩ [0xA0, 8]).dec; d.readyFor 2 ∧ d.remaining = 2) := by decide

/-- A run up to `N` and one past it. -/
theorem test_witness_RleRepeatsPrev :
    (let d := (decoding ⟨3, 1, 4, 0⟩ [0xC2]).dec; d.readyFor 1 ∧ d.count + 3 = pixelCount d.cfg) ∧
      (let d := (decoding ⟨2, 1, 3, 0⟩ [0xC2]).dec; d.readyFor 1 ∧ d.count + 3 = pixelCount d.cfg + 1) := by decide

/-- Three bytes left and four. -/
theorem test_witness_RgbKeepsAlpha :
    (let d := (decoding ⟨1, 1, 4, 0⟩ [0xFE, 1, 2]).dec; d.inRegion ∧ d.count < pixelCount d.cfg ∧ d.remaining = 3) ∧
      (let d := (decoding ⟨1, 1, 4, 0⟩ [0xFE, 1, 2, 3]).dec; d.readyFor 4 ∧ d.remaining = 4) := by decide

/-- Four bytes left and five. -/
theorem test_witness_RgbaTakesAllFour :
    (let d := (decoding ⟨1, 1, 4, 0⟩ [0xFF, 1, 2, 3]).dec; d.inRegion ∧ d.count < pixelCount d.cfg ∧ d.remaining = 4) ∧
      (let d := (decoding ⟨1, 1, 3, 0⟩ [0xFF, 1, 2, 3, 4]).dec; d.readyFor 5 ∧ d.remaining = 5) := by decide

theorem test_witness_HeaderStartsOperation :
    ∃ s : State, s.dec.phase ≠ .busy ∧ s.dec.len = 22 ∧ (1 : BitVec 32) ≠ 0 ∧ (3 : Byte) = 3 ∧ (1 : Byte) = 1 :=
  ⟨{ State.reset with dec := { Dec.reset with len := 22 } }, by decide⟩

/-- 13, 21 and 22 bytes. -/
theorem test_witness_StartDecodeStep :
    (commanded (.startDecode (List.replicate 13 0))).dec.phase ≠ .busy ∧
      hdrDec (encode (.header ⟨1, 1, 4, 0⟩) ++ List.replicate 7 0) = .ok ⟨1, 1, 4, 0⟩ ∧
      hdrDec (encode (.header ⟨1, 1, 4, 0⟩) ++ endMarkerBytes) = .ok ⟨1, 1, 4, 0⟩ := by decide

/-- The image short by one, and whole; the marker good, and damaged (T72). -/
theorem test_witness_FinishStepChecks :
    (withTurn oneRunEnd).decTurn [] ∧ oneRunEnd.decTurn [] ∧ oneRunEnd.dec.atTrailer ∧
      oneRunEnd.dec.len = oneRunEnd.dec.bytes.length ∧ oneRunEnd.dec.count = pixelCount oneRunEnd.dec.cfg ∧
      (let d := (decodingAt ⟨2, 1, 4, 0⟩ [0xC0] ⟨0, 0, 0, 255⟩ 1 15).dec;
        d.atTrailer ∧ d.count + 1 = pixelCount d.cfg) ∧
      (damagedEnd.decTurn [] ∧ damagedEnd.dec.atTrailer ∧ damagedEnd.dec.len = damagedEnd.dec.bytes.length ∧
        damagedEnd.dec.count = pixelCount damagedEnd.dec.cfg ∧
        damagedEnd.dec.bytes.drop (damagedEnd.dec.len - 8) = [0, 0, 0, 0, 0, 0, 0, 2]) := by decide

theorem test_witness_CompleteImageRefusesChunk :
    frameOf (.rle 1) = .chunk ∧
      (let d := (decodingAt ⟨1, 1, 4, 0⟩ [0xC0, 0xC0] ⟨0, 0, 0, 255⟩ 1 15).dec;
        d.inRegion ∧ d.count = pixelCount d.cfg) := by decide

/-- T78 and T80: a cut chunk before the image is complete, and after. -/
theorem test_witness_CutChunkRaises :
    (let s := decoding ⟨1, 1, 4, 0⟩ [0xA0];
      s.decTurn [] ∧ s.dec.inRegion ∧ decode .chunk s.dec.region = .error .truncatedChunk) ∧
      (let s := decodingAt ⟨1, 1, 4, 0⟩ [0xC0, 0xFE] ⟨0, 0, 0, 255⟩ 1 15;
        s.decTurn [] ∧ s.dec.inRegion ∧ decode .chunk s.dec.region = .error .truncatedChunk) := by decide

theorem test_witness_InstructionsStopOutsideTheirStep :
    frameOf (.index 0) = .chunk ∧ ¬State.reset.dec.inRegion ∧ oneRun.dec.phase = .busy ∧ ¬oneRun.dec.atTrailer := by
  decide

theorem test_witness_StepRunsDecoded :
    (oneRun.decTurn [] ∧ oneRun.dec.inRegion ∧ decode .chunk oneRun.dec.region = .ok (.rle 1, [])) ∧
      (oneRunEnd.decTurn [] ∧ oneRunEnd.dec.atTrailer ∧ decode .trailer oneRunEnd.dec.trailer = .ok (.endMarker, [])) ∧
      (State.reset.dec.phase ≠ .busy ∧
        decode .start (encode (.header ⟨1, 1, 4, 0⟩) ++ [7]) = .ok (.header ⟨1, 1, 4, 0⟩, [7])) := by decide

theorem test_witness_FreshChunkFrame :
    (∃ t, exec (.rgb 1 2 3) (decoding ⟨1, 1, 4, 0⟩ [0xFE, 1, 2, 3]) = .next t ∧ t.dec.phase = .busy) ∧
      (∃ t, exec (.rgba 1 2 3 4) (decoding ⟨1, 1, 4, 0⟩ [0xFF, 1, 2, 3, 4]) = .next t ∧ t.dec.phase = .busy) ∧
      (∃ t, exec (.diff 0 0 0) twoDiffs = .next t ∧ t.dec.phase = .busy) ∧
      (∃ t, exec (.luma 0 0 0) twoDiffs = .next t ∧ t.dec.phase = .busy) :=
  ⟨next_of_after (by decide), next_of_after (by decide), next_of_after (by decide), next_of_after (by decide)⟩

theorem test_witness_IndexFrame : ∃ t, exec (.index 0) twoDiffs = .next t ∧ t.dec.phase = .busy :=
  next_of_after (by decide)

theorem test_witness_RleFrame : ∃ t, exec (.rle 2) twoDiffs = .next t ∧ t.dec.phase = .busy := next_of_after (by decide)

theorem test_witness_RecordFrame :
    (∃ t, exec (.header ⟨1, 1, 4, 0⟩) { State.reset with dec := { Dec.reset with len := 22 } } = .next t ∧
        t.dec.phase = .busy) ∧
      (∃ t, exec .endMarker oneRunEnd = .next t ∧ t.dec.phase = .done) :=
  ⟨next_of_after (by decide), next_of_after (by decide)⟩

/-- Errors in a chunk step, in a start from `ERROR`, in a start from `IDLE`, and a unit that stays in `ERROR`. -/
theorem test_witness_ErrorKeepsRegisters :
    (∃ t, step (decoding ⟨1, 1, 4, 0⟩ [0xA0]) = .next t ∧ t.dec.phase = .error) ∧
      (∃ t, step (errored (.startDecode [])) = .next t ∧ (t.dec.phase = .error ∧ t.dec.err = some .truncatedHeader)) ∧
      (∃ t, step (commanded (.startEncode ⟨0, 1, 4, 0⟩ [])) = .next t ∧ t.enc.phase = .error) ∧
      (∃ t, step (errored (.startEncode ⟨1, 1, 5, 0⟩ [])) = .next t ∧
        (t.enc.phase = .error ∧ t.enc.err = some .invalidChannelCount)) ∧
      (∃ t, step (errored (.run .dec)) = .next t ∧ t.dec.phase = .error) :=
  ⟨next_of_after (by decide), next_of_after (by decide), next_of_after (by decide), next_of_after (by decide),
    next_of_after (by decide)⟩

theorem test_witness_EndedUnitsWait :
    (∃ t, step (commanded (.startDecode (encode (.header ⟨1, 1, 4, 0⟩) ++ endMarkerBytes))) = .next t ∧
        t.dec ≠ State.reset.dec) ∧
      (∃ t, step (commanded (.startEncode ⟨1, 1, 4, 0⟩ [0, 0, 0, 255])) = .next t ∧ t.enc ≠ State.reset.enc) ∧
      (∃ t, step (commanded (.hdrEnc ⟨1, 1, 4, 0⟩)) = .next t ∧ t.hdr ≠ State.reset.hdr) :=
  ⟨next_of_after (by decide), next_of_after (by decide), next_of_after (by decide)⟩

theorem test_witness_PhaseTransitions :
    (∃ t, step oneRunEnd = .next t ∧ t.dec.phase ≠ oneRunEnd.dec.phase) ∧
      (∃ t, step (commanded (.startEncode ⟨1, 1, 4, 0⟩ [0, 0, 0, 255])) = .next t ∧ t.enc.phase ≠ .idle) :=
  ⟨next_of_after (by decide), next_of_after (by decide)⟩

theorem test_witness_StartWhileBusyIgnored :
    (∃ s : State, s.agenda = .startDecode [] :: [] ∧ s.dec.phase = .busy) ∧
      (∃ s : State, s.agenda = .startEncode ⟨1, 1, 4, 0⟩ [] :: [] ∧ s.enc.phase = .busy) :=
  ⟨⟨{ oneRun with agenda := [.startDecode []] }, by decide⟩,
    ⟨{ encoding ⟨1, 1, 4, 0⟩ [0, 0, 0, 255] with agenda := [.startEncode ⟨1, 1, 4, 0⟩ []] }, by decide⟩⟩

theorem test_witness_ResetRestoresUnit :
    (commanded (.reset .enc)).agenda = .reset .enc :: [] ∧ (commanded (.reset .dec)).agenda = .reset .dec :: [] ∧
      (commanded (.reset .hdr)).agenda = .reset .hdr :: [] := by decide

theorem test_witness_IdleBlockWaits :
    State.reset.agenda = [] ∧ State.reset.enc.phase ≠ .busy ∧ State.reset.dec.phase ≠ .busy := by decide

theorem test_witness_StartInitialises :
    (∃ t, step (commanded (.startDecode (encode (.header ⟨1, 1, 4, 0⟩) ++ endMarkerBytes))) = .next t ∧
        t.dec.phase = .busy) ∧
      (∃ t, step (commanded (.startEncode ⟨1, 1, 4, 0⟩ [0, 0, 0, 255])) = .next t ∧ t.enc.phase = .busy) :=
  ⟨next_of_after (by decide), next_of_after (by decide)⟩

/-- Two blocks whose decoders, and whose encoders, hold different things before the same start. -/
theorem test_witness_NoPersistence :
    (∃ t, step { oneRunEnd with
          dec := { oneRunEnd.dec with phase := .done }
          agenda := [.startDecode (encode (.header ⟨1, 1, 4, 0⟩) ++ endMarkerBytes)] } = .next t ∧ t.dec.phase = .busy) ∧
      (∃ t, step { commanded (.startEncode ⟨1, 1, 4, 0⟩ [0, 0, 0, 255]) with
          enc := { Enc.reset with phase := .done, run := 3, out := [1] } } = .next t ∧ t.enc.phase = .busy) :=
  ⟨next_of_after (by decide), next_of_after (by decide)⟩

theorem test_witness_UnitsAreIsolated :
    (∃ t, step (withTurn oneRun) = .next t ∧ t.dec.count = 1) ∧
      ∃ t, step { withTurn oneRun with enc := { Enc.reset with count := 5 } } = .next t ∧ t.dec.count = 1 :=
  ⟨next_of_after (by decide), next_of_after (by decide)⟩

theorem test_witness_TrailerNotReadByChunks :
    (oneRun.decTurn [] ∧ oneRun.dec.inRegion ∧
        (oneRun.dec.bytes.take 15 ++ [9, 9]).take (oneRun.dec.len - 8) = oneRun.dec.bytes.take (oneRun.dec.len - 8)) ∧
      ∃ t, step oneRun = .next t ∧ t.dec.count = 1 :=
  ⟨by decide, next_of_after (by decide)⟩

/-- The run grows; it is emitted at the last pixel; it is emitted at 62. -/
theorem test_witness_EncoderExtendsRun :
    (encoding ⟨2, 1, 3, 0⟩ [0, 0, 0, 0, 0, 0]).pixelTurn [] ⟨0, 0, 0, 255⟩ ∧
      (encoding ⟨1, 1, 3, 0⟩ [0, 0, 0]).pixelTurn [] ⟨0, 0, 0, 255⟩ ∧
      (let s := encoding ⟨2, 1, 3, 0⟩ [0, 0, 0, 0, 0, 0];
        ({ s with enc := { s.enc with run := 61 } } : State).pixelTurn [] ⟨0, 0, 0, 255⟩) := by decide

/-- T41: a hit on the untouched slot 0. -/
theorem test_witness_EncoderEmitsIndex :
    (let s := encoding ⟨1, 1, 4, 0⟩ [0, 0, 0, 0];
      s.pixelTurn [] ⟨0, 0, 0, 0⟩ ∧ (⟨0, 0, 0, 0⟩ : Pixel) ≠ s.enc.prev ∧
        Cache.read s.enc.cache (slotHash ⟨0, 0, 0, 0⟩) = ⟨0, 0, 0, 0⟩) := by decide

/-- T43: the lower bound of each delta. -/
theorem test_witness_EncoderEmitsDiff :
    (let s := encoding ⟨1, 1, 4, 0⟩ [254, 254, 254, 255];
      let p : Pixel := ⟨254, 254, 254, 255⟩;
      s.pixelTurn [] p ∧ p ≠ s.enc.prev ∧ Cache.read s.enc.cache (slotHash p) ≠ p ∧ diffOk p s.enc.prev = true) := by decide

/-- T46: the bounds of the luma differences. -/
theorem test_witness_EncoderEmitsLuma :
    (let s := encoding ⟨1, 1, 4, 0⟩ [216, 224, 231, 255];
      let p : Pixel := ⟨216, 224, 231, 255⟩;
      s.pixelTurn [] p ∧ p ≠ s.enc.prev ∧ Cache.read s.enc.cache (slotHash p) ≠ p ∧ diffOk p s.enc.prev = false ∧
        lumaOk p s.enc.prev = true) := by decide

/-- T49 and T53: alpha unchanged and changed. -/
theorem test_witness_EncoderEmitsLiteral :
    (let s := encoding ⟨1, 1, 4, 0⟩ [32, 32, 32, 255];
      let p : Pixel := ⟨32, 32, 32, 255⟩;
      s.pixelTurn [] p ∧ p ≠ s.enc.prev ∧ Cache.read s.enc.cache (slotHash p) ≠ p ∧ diffOk p s.enc.prev = false ∧
        lumaOk p s.enc.prev = false) ∧
      (let s := encoding ⟨1, 1, 4, 0⟩ [0, 0, 0, 128];
        let p : Pixel := ⟨0, 0, 0, 128⟩;
        s.pixelTurn [] p ∧ p ≠ s.enc.prev ∧ Cache.read s.enc.cache (slotHash p) ≠ p ∧ diffOk p s.enc.prev = false ∧
          lumaOk p s.enc.prev = false) := by decide

/-- The invariant of a started decoder, whatever its body. -/
theorem inv_decoding (cfg : ImageConfig) (body : List Byte) (h : configError cfg = none) : (decoding cfg body).Inv where
  hdr := ⟨(fun h => by cases h), by show errMatchesPhase .idle none; decide⟩
  enc := ⟨by show errMatchesPhase .idle none; decide, fun h => by cases h⟩
  dec :=
    { err := by show errMatchesPhase .busy none; decide
      memory := List.Pairwise.nil
      done := fun h => by cases h
      busy := fun _ =>
        { cfgLegal := h
          lengthKnown := rfl
          runIdle := rfl
          cursorLow := Nat.le_refl 14
          cursorHigh := by
            show 14 + 8 ≤ (encode (.header cfg) ++ body ++ endMarkerBytes).length
            simp [encode, magic, be32, endMarkerBytes]
          countBounded := Nat.zero_le _
          written := fun a => by
            show (Memory.read [] a).isSome = true ↔ a < 0 * cfg.channels.toNat
            simp [Memory.read] } }

/-- The invariant of a started encoder of one pixel. -/
theorem inv_encoding : (encoding ⟨1, 1, 4, 0⟩ [0, 0, 0, 255]).Inv where
  hdr := ⟨by decide, by decide⟩
  dec := ⟨by decide, List.Pairwise.nil, (fun h => by cases h), (fun h => by cases h)⟩
  enc :=
    { err := by decide
      busy := fun _ =>
        { cfgLegal := by decide
          bufferFits := by decide
          runSmall := by decide
          runCounted := by decide
          countBounded := by decide
          runPending := fun i _ h => absurd h (Nat.not_lt_zero i)
          runFlushed := by decide
          headerOut := by decide
          alphaOpaque := by decide } }

theorem test_witness_EncoderEndStep :
    let s := encoding ⟨1, 1, 4, 0⟩ [0, 0, 0, 255]
    let e : State := { s with enc := { s.enc with count := 1 } }
    e.encTurn [] ∧ e.enc.phase = .busy ∧ e.enc.count = pixelCount e.enc.cfg := by decide

theorem test_witness_NoRunPendingAtEnd :
    let s := encoding ⟨1, 1, 4, 0⟩ [0, 0, 0, 255]
    s.Inv ∧ s.encTurn [] ∧ s.enc.phase = .busy ∧
      ∃ t, step s = .next t ∧ (t.enc.phase = .busy ∧ t.enc.count = pixelCount t.enc.cfg) :=
  ⟨inv_encoding, by decide, by decide, next_of_after (by decide)⟩

/-- A buffer one byte short, and one that fits. -/
theorem test_witness_StartEncodeStep :
    (commanded (.startEncode ⟨1, 1, 3, 0⟩ [1, 2])).enc.phase ≠ .busy ∧
      (commanded (.startEncode ⟨1, 1, 3, 0⟩ [1, 2, 3])).enc.phase ≠ .busy ∧
      (∃ t, step (commanded (.startEncode ⟨1, 1, 3, 0⟩ [1, 2])) = .next t ∧ t.enc.err = some .pixelCountMismatch) :=
  ⟨by decide, by decide, next_of_after (by decide)⟩

/-- A 3-channel encode that has just started. -/
theorem test_witness_ThreeChannelsNeverRgba :
    (encoding ⟨1, 1, 3, 0⟩ [8, 0, 0]).enc.BusyInv ∧ (encoding ⟨1, 1, 3, 0⟩ [8, 0, 0]).enc.cfg.channels = 3 ∧
      (encoding ⟨1, 1, 3, 0⟩ [8, 0, 0]).enc.pixRead 0 = some ⟨8, 0, 0, 255⟩ :=
  ⟨{  cfgLegal := by decide
      bufferFits := by decide
      runSmall := by decide
      runCounted := by decide
      countBounded := by decide
      runPending := fun i _ h => absurd h (Nat.not_lt_zero i)
      runFlushed := by decide
      headerOut := by decide
      alphaOpaque := by decide }, by decide, by decide⟩

/-- The last pixel of a 3-channel image and of a 4-channel image. -/
theorem test_witness_PixReadGivesPixel :
    (let e := (encoding ⟨2, 1, 3, 0⟩ [1, 2, 3, 4, 5, 6]).enc;
      e.pixels.length = bufferLength e.cfg ∧ 1 + 1 = pixelCount e.cfg ∧ e.cfg.channels = 3) ∧
      (let e := (encoding ⟨1, 1, 4, 0⟩ [1, 2, 3, 4]).enc;
        e.pixels.length = bufferLength e.cfg ∧ 0 < pixelCount e.cfg ∧ e.cfg.channels = 4) := by decide

theorem test_witness_PixWriteWritesPixel :
    1 < pixelCount twoDiffs.dec.cfg ∧ (twoDiffs.dec.cfg.channels = 3 ∨ twoDiffs.dec.cfg.channels = 4) := by decide

/-- Each phase of the three units (`HDR` is never `BUSY` between steps, log 22). -/
theorem test_witness_HostReadsByPhase :
    (let s := errored (.run .dec);
      (s.hdr.phase = .error ∧ s.hdr.err = some .badMagic) ∧ (s.enc.phase = .error ∧ s.enc.err = some .invalidDimension) ∧
        (s.dec.phase = .error ∧ s.dec.err = some .pixelCountMismatch ∧ s.dec.phase ≠ .done)) ∧
      (oneRun.dec.phase = .busy ∧ (encoding ⟨1, 1, 3, 0⟩ [1, 2, 3]).enc.phase = .busy) ∧
      (State.reset.hdr.phase = .idle ∧ State.reset.enc.phase = .idle ∧ State.reset.dec.phase = .idle) ∧
      (∃ t, step (commanded (.hdrEnc ⟨1, 1, 4, 0⟩)) = .next t ∧ t.hdr.phase = .done) ∧
      (∃ t, exec .endMarker oneRunEnd = .next t ∧ t.dec.phase = .done) :=
  ⟨by decide, by decide, by decide, next_of_after (by decide), next_of_after (by decide)⟩

/-- T44 and T47. -/
theorem test_witness_InverseLaws :
    diffOk ⟨1, 1, 1, 255⟩ ⟨0, 0, 0, 255⟩ = true ∧ lumaOk ⟨38, 31, 23, 255⟩ ⟨0, 0, 0, 255⟩ = true := by decide

/-- T44 meets the antecedent of the first law. -/
theorem test_witness_LumaTestLaws : diffOk ⟨1, 1, 1, 255⟩ ⟨0, 0, 0, 255⟩ = true := by decide

theorem test_witness_OnlyFreshChunksWriteCache :
    (∃ t, exec (.diff 1 (-1) 0) twoDiffs = .next t ∧ t.dec.cache ≠ twoDiffs.dec.cache) ∧
      ((encoding ⟨1, 1, 4, 0⟩ [2, 2, 2, 255]).enc.takePixel ⟨2, 2, 2, 255⟩).cache ≠
        (encoding ⟨1, 1, 4, 0⟩ [2, 2, 2, 255]).enc.cache :=
  ⟨next_of_after (by decide), by decide⟩

/-- The second `DIFF` of `twoDiffs` still to come, the first executed. -/
def oneDiff : State :=
  { twoDiffs with
    dec := { twoDiffs.dec with
      pos := 15, count := 1, cache := Cache.write Cache.init 53 ⟨0, 0, 0, 255⟩
      outbuf := [(0, 0), (1, 0), (2, 0), (3, 255)] } }

/-- R27: at the start the cache does not hold `prev`; after a `DIFF` of zeros it does. -/
theorem test_prev_cached :
    ¬prevCached twoDiffs.dec.cache twoDiffs.dec.prev ∧
      after (step twoDiffs) (fun t => decide (prevCached t.dec.cache t.dec.prev)) = some true := by decide

theorem test_witness_StepKeepsInvariant :
    (oneRun.Inv ∧ ∃ t, step oneRun = .next t ∧ t.dec.count = 1) ∧
      (oneDiff.Inv ∧ oneDiff.PrevInv ∧ ∃ t, step oneDiff = .next t ∧ t.dec.count = 2) :=
  ⟨⟨inv_decoding _ _ (by decide), next_of_after (by decide)⟩,
    { hdr := ⟨by decide, by decide⟩
      enc := ⟨by decide, fun h => by cases h⟩
      dec :=
        { err := by decide
          memory := by decide
          done := fun h => by cases h
          busy := fun _ =>
            { cfgLegal := by decide
              lengthKnown := by decide
              runIdle := by decide
              cursorLow := by decide
              cursorHigh := by decide
              countBounded := by decide
              written := fun a => by
                show (Memory.read [(0, 0), (1, 0), (2, 0), (3, 255)] a).isSome = true ↔ a < 4
                simp only [Memory.read]
                split_ifs <;> simp <;> omega } } },
    { enc := fun h => by cases h
      dec := fun _ => ⟨[.diff 0 0 0],
        { wellFormed := fun i hi => by rw [List.mem_singleton.mp hi]; decide
          executed := by decide
          start := fun h => by cases h
          cached := fun _ _ _ => by decide }⟩ },
    next_of_after (by decide)⟩

/-- The encoder's side of the second clause: one pixel emitted as `DIFF` (T44), its run not yet begun. -/
theorem test_witness_StepKeepsInvariant_enc :
    let s := encoding ⟨1, 1, 4, 0⟩ [1, 1, 1, 255]
    (s.enc.takePixel ⟨1, 1, 1, 255⟩).PrevInv [.diff 1 1 1] :=
  { wellFormed := fun i hi => by rw [List.mem_singleton.mp hi]; decide
    emitted := by decide
    start := fun h => by cases h
    cached := fun _ _ => by decide
    index := fun _ h => by cases h }

theorem test_witness_NoStopUnderInvariant : oneRun.Inv ∧ (decoding ⟨1, 1, 3, 1⟩ [0xFE, 1]).Inv :=
  ⟨inv_decoding _ _ (by decide), inv_decoding _ _ (by decide)⟩

/-- Legal inputs, and a buffer that does not fit. -/
theorem test_witness_EncoderRefinesEncode :
    (let s := commanded (.startEncode ⟨1, 1, 4, 0⟩ [0, 0, 0, 255]);
      s.agenda = [.startEncode ⟨1, 1, 4, 0⟩ [0, 0, 0, 255]] ∧ s.enc.phase ≠ .busy ∧ s.dec.phase ≠ .busy) ∧
      encodeImage ⟨1, 1, 4, 0⟩ [0, 0, 0, 255] =
        .ok (encode (.header ⟨1, 1, 4, 0⟩) ++ [0xC0] ++ endMarkerBytes) ∧
      encodeImage ⟨1, 1, 4, 0⟩ [0, 0, 0] = .error .pixelCountMismatch := by decide

/-- T20 and T67. -/
theorem test_witness_DecoderRefinesDecode :
    (commanded (.startDecode [])).agenda = [.startDecode []] ∧ (commanded (.startDecode [])).dec.phase ≠ .busy ∧
      decodeStream (encode (.header ⟨1, 1, 4, 0⟩) ++ [0xC0] ++ endMarkerBytes) = .ok ⟨⟨1, 1, 4, 0⟩, [0, 0, 0, 255]⟩ ∧
      decodeStream (encode (.header ⟨1, 1, 4, 0⟩) ++ endMarkerBytes) = .error .unexpectedEndOfStream := by decide

theorem test_witness_RoundTrip :
    encodeImage ⟨1, 1, 3, 0⟩ [2, 2, 2] = .ok (encode (.header ⟨1, 1, 3, 0⟩) ++ [0xA2, 0x88] ++ endMarkerBytes) := by decide

/-- An encoder and a decoder of the same one-pixel image, both just started. -/
theorem test_witness_LockstepOfOnePixel :
    let e := (encoding ⟨1, 1, 4, 0⟩ [0, 0, 0, 255]).enc
    let s := decoding ⟨1, 1, 4, 0⟩ [0xFF, 0, 0, 0, 0, 0]
    e.BusyInv ∧ e.pixRead e.count = some ⟨0, 0, 0, 255⟩ ∧ s.dec.phase = .busy ∧ s.dec.cfg = e.cfg ∧
      s.dec.cache = e.cache ∧ s.dec.prev = e.prev ∧ s.dec.count = e.count - e.run.toNat ∧ s.dec.pos + 14 = s.dec.len :=
  ⟨inv_encoding.enc.busy (by decide), by decide⟩

theorem test_witness_OperationsEnd :
    (let s := encoding ⟨1, 1, 4, 0⟩ [0, 0, 0, 255];
      s.Inv ∧ s.agenda = [] ∧ s.enc.phase = .busy ∧ s.dec.phase ≠ .busy) ∧
      (oneRun.Inv ∧ oneRun.agenda = [] ∧ oneRun.dec.phase = .busy) ∧ (Instr.rle 62).WellFormed :=
  ⟨⟨inv_encoding, by decide⟩, ⟨inv_decoding _ _ (by decide), by decide⟩, by decide⟩

/-- The shortest stream. -/
theorem test_witness_EncodedLengthBounds :
    encodeImage ⟨1, 1, 3, 0⟩ [0, 0, 0] = .ok (encode (.header ⟨1, 1, 3, 0⟩) ++ [0xC0] ++ endMarkerBytes) := by decide

/-- A finished decoder of one pixel. -/
def oneDone : State :=
  { oneRunEnd with dec := { oneRunEnd.dec with phase := .done, outbuf := [(0, 0), (1, 0), (2, 0), (3, 255)] } }

theorem test_witness_DoneImageIsWhole : oneDone.Inv ∧ oneDone.dec.phase = .done :=
  ⟨{  hdr := ⟨by decide, by decide⟩
      enc := ⟨by decide, fun h => by cases h⟩
      dec :=
        { err := by decide
          memory := by decide
          busy := fun h => by cases h
          done := fun _ a => by
            show (Memory.read [(0, 0), (1, 0), (2, 0), (3, 255)] a).isSome = true ↔ a < 4
            simp only [Memory.read]
            split_ifs <;> simp <;> omega } }, by decide⟩

end Sys2Proof.Tests
end

section
/-! PROOFS of 20_memory.md: `PixRead` (R42). -/

namespace Sys2Proof.Machine

/-- `PixRead` of a pixel that exists takes the pixel at the front of the buffer's rest from `i * C` on. -/
theorem Enc.pixRead_eq {e : Enc} {i : Nat} (h : pixelExists e.cfg i) :
    e.pixRead i = pixelOf e.cfg.channels (e.pixels.drop (i * e.cfg.channels.toNat)) := if_pos h

theorem pixelOf_three_drop {bytes : List Byte} {k : Nat} (h : k + 2 < bytes.length) :
    pixelOf 3 (bytes.drop k) = some ⟨bytes[k], bytes[k + 1], bytes[k + 2], 255⟩ := by
  rw [List.drop_eq_getElem_cons (by omega), List.drop_eq_getElem_cons (by omega), List.drop_eq_getElem_cons h]
  rfl

theorem pixelOf_four_drop {bytes : List Byte} {k : Nat} (h : k + 3 < bytes.length) :
    pixelOf 4 (bytes.drop k) = some ⟨bytes[k], bytes[k + 1], bytes[k + 2], bytes[k + 3]⟩ := by
  rw [List.drop_eq_getElem_cons (by omega), List.drop_eq_getElem_cons (by omega),
    List.drop_eq_getElem_cons (by omega), List.drop_eq_getElem_cons h]
  rfl

/-- The `C` bytes of a pixel of the image lie inside a buffer of `N * C` bytes. -/
theorem pixel_end_le_bufferLength {cfg : ImageConfig} {i : Nat} (h : i < pixelCount cfg) :
    i * cfg.channels.toNat + cfg.channels.toNat ≤ bufferLength cfg := by
  rw [← Nat.succ_mul]
  exact Nat.mul_le_mul_right _ h

/-- Settles O44: the pixel's bytes lie inside the buffer, so the front of the buffer's rest from `i * C` on is the bytes at
`i * C` and the offsets after it. -/
theorem pixReadGivesPixel : Obligations.PixReadGivesPixel := by
  intro e i hlen hi
  have hend := pixel_end_le_bufferLength hi
  rw [← hlen] at hend
  constructor
  · intro h3
    have hread := Enc.pixRead_eq ⟨hi, .inl h3⟩
    rw [h3] at hread hend
    have hin : i * 3 + 2 < e.pixels.length := hend
    exact ⟨_, _, _, List.getElem?_eq_getElem (by omega), List.getElem?_eq_getElem (by omega),
      List.getElem?_eq_getElem hin, hread.trans (pixelOf_three_drop hin)⟩
  · intro h4
    have hread := Enc.pixRead_eq ⟨hi, .inr h4⟩
    rw [h4] at hread hend
    have hin : i * 4 + 3 < e.pixels.length := hend
    exact ⟨_, _, _, _, List.getElem?_eq_getElem (by omega), List.getElem?_eq_getElem (by omega),
      List.getElem?_eq_getElem (by omega), List.getElem?_eq_getElem hin, hread.trans (pixelOf_four_drop hin)⟩

end Sys2Proof.Machine
end

section
/-! PROOFS of 30_encoding.md: the first byte selects the chunk type (R63). -/

namespace Sys2Proof

/-- R63's test on `t[7:6]`, on numbers: the top two bits are the quotient by 64. -/
theorem topBits_eq_iff (t : Byte) (tag : BitVec 2) : t.extractLsb' 6 2 = tag ↔ t.toNat / 64 = tag.toNat := by
  rw [← BitVec.toNat_inj, BitVec.extractLsb'_toNat, Nat.shiftRight_eq_div_pow, Nat.mod_eq_of_lt (by omega)]

/-- The tag is spelled as `simp` spells it, so that the two tag tests rewrite. -/
theorem eq_FE_iff (t : Byte) : t = 254#8 ↔ t.toNat = 0xFE := BitVec.toNat_inj.symm

theorem eq_FF_iff (t : Byte) : t = 255#8 ↔ t.toNat = 0xFF := BitVec.toNat_inj.symm

/-- The ranges of R63's table cover the byte. -/
theorem firstByte_ranges (t : Byte) :
    t = 0xFE ∨ t = 0xFF ∨ t.toNat ≤ 0x3F ∨ (0x40 ≤ t.toNat ∧ t.toNat ≤ 0x7F) ∨
      (0x80 ≤ t.toNat ∧ t.toNat ≤ 0xBF) ∨ (0xC0 ≤ t.toNat ∧ t.toNat ≤ 0xFD) := by
  have hFE : t = 0xFE ↔ t.toNat = 0xFE := eq_FE_iff t
  have hFF : t = 0xFF ↔ t.toNat = 0xFF := eq_FF_iff t
  rw [hFE, hFF]
  omega

/-- Below the two literal tags the decoder goes by the top two bits. -/
theorem decodeChunk_of_lt {t : Byte} (h : t.toNat < 0xFE) (rest : List Byte) :
    decodeChunk (t :: rest) =
      if t.toNat / 64 = 0 then .ok (.index (t.extractLsb' 0 6), rest)
      else if t.toNat / 64 = 1 then .ok (decodeDiff t, rest)
      else if t.toNat / 64 = 2 then decodeLuma t rest
      else .ok (.rle ((t.extractLsb' 0 6).toNat + 1), rest) := by
  have hFE : t ≠ 0xFE := mt (eq_FE_iff t).mp (by omega)
  have hFF : t ≠ 0xFF := mt (eq_FF_iff t).mp (by omega)
  simp only [decodeChunk, if_neg hFE, if_neg hFF, topBits_eq_iff]
  rfl

theorem decodeChunk_index {t : Byte} (h : t.toNat ≤ 0x3F) (rest : List Byte) :
    decodeChunk (t :: rest) = .ok (.index (t.extractLsb' 0 6), rest) := by
  rw [decodeChunk_of_lt (by omega), if_pos (by omega)]

theorem decodeChunk_diff {t : Byte} (h : 0x40 ≤ t.toNat ∧ t.toNat ≤ 0x7F) (rest : List Byte) :
    decodeChunk (t :: rest) = .ok (decodeDiff t, rest) := by
  rw [decodeChunk_of_lt (by omega), if_neg (by omega), if_pos (by omega)]

theorem decodeChunk_luma {t : Byte} (h : 0x80 ≤ t.toNat ∧ t.toNat ≤ 0xBF) (rest : List Byte) :
    decodeChunk (t :: rest) = decodeLuma t rest := by
  rw [decodeChunk_of_lt (by omega), if_neg (by omega), if_neg (by omega), if_pos (by omega)]

theorem decodeChunk_rle {t : Byte} (h : 0xC0 ≤ t.toNat ∧ t.toNat ≤ 0xFD) (rest : List Byte) :
    decodeChunk (t :: rest) = .ok (.rle ((t.extractLsb' 0 6).toNat + 1), rest) := by
  rw [decodeChunk_of_lt (by omega), if_neg (by omega), if_neg (by omega), if_neg (by omega)]

/-- Settles O3: each range of R63's table has one equation of the decoder, and the ranges are disjoint, so the chunk it
gives is of that range's type and of no other. -/
theorem firstByteSelectsChunk : Obligations.FirstByteSelectsChunk := by
  intro t tail htail
  match tail, htail with
  | b1 :: b2 :: b3 :: b4 :: rest, _ =>
    rcases firstByte_ranges t with rfl | rfl | h | h | h | h
    · exact ⟨.rgb b1 b2 b3, b4 :: rest, rfl, by simp⟩
    · exact ⟨.rgba b1 b2 b3 b4, rest, rfl, by simp⟩
    · exact ⟨_, _, decodeChunk_index h _, by simp [eq_FE_iff, eq_FF_iff]; omega⟩
    · exact ⟨_, _, decodeChunk_diff h _, by simp [decodeDiff, eq_FE_iff, eq_FF_iff]; omega⟩
    · exact ⟨_, _, decodeChunk_luma h _, by simp [eq_FE_iff, eq_FF_iff]; omega⟩
    · exact ⟨_, _, decodeChunk_rle h _, by simp [eq_FE_iff, eq_FF_iff]; omega⟩

end Sys2Proof
end

section
/-! PROOFS of 42_encoder.md: the pixel step by the rows of R132 (R133 to R139), and the end step (R141). -/

namespace Sys2Proof

/-- A biased field in its range, appended below other bits, is added to them shifted up by its width (R113). -/
theorem ofInt_append_biasEnc (m : Nat) {n : Nat} (x : Int) {v lo : Int} (h0 : 0 ≤ v - lo) (h1 : v - lo < 2 ^ n) :
    BitVec.ofInt m x ++ biasEnc n v lo = BitVec.ofInt (m + n) (x * 2 ^ n + (v - lo)) := by
  have hx0 : 0 ≤ x % 2 ^ m := Int.emod_nonneg x (by positivity)
  have hx1 : x % 2 ^ m + 1 ≤ 2 ^ m := Int.emod_lt_of_pos x (by positivity)
  have hsum0 : 0 ≤ x % 2 ^ m * 2 ^ n + (v - lo) := by positivity
  have hsum1 : x % 2 ^ m * 2 ^ n + (v - lo) < 2 ^ (m + n) := by
    rw [pow_add]
    linarith [mul_le_mul_of_nonneg_right hx1 (show (0 : Int) ≤ 2 ^ n by positivity)]
  have hsplit : x * 2 ^ n + (v - lo) = x % 2 ^ m * 2 ^ n + (v - lo) + 2 ^ (m + n) * (x / 2 ^ m) := by
    conv_lhs => rw [← Int.emod_add_mul_ediv x (2 ^ m)]
    ring
  have hlow : (x * 2 ^ n + (v - lo)) % 2 ^ (m + n) = x % 2 ^ m * 2 ^ n + (v - lo) := by
    rw [hsplit, Int.add_mul_emod_self_left, Int.emod_eq_of_lt hsum0 hsum1]
  apply BitVec.eq_of_toNat_eq
  rw [BitVec.toNat_append, ← Nat.shiftLeft_add_eq_or_of_lt (BitVec.isLt _), Nat.shiftLeft_eq, biasEnc]
  zify
  simp [BitVec.toNat_ofInt, hlow, Int.emod_eq_of_lt h0 h1, hx0, Int.sub_nonneg.mp h0, hsum0]

/-- The byte `01rrggbb` as the sum of R136. -/
theorem encode_diff_byte {dr dg db : Int} (h : (Instr.diff dr dg db).WellFormed) :
    encode (.diff dr dg db) = [BitVec.ofInt 8 (0x40 + (dr + 2) * 16 + (dg + 2) * 4 + (db + 2))] := by
  obtain ⟨hr, hg, hb⟩ := h
  show [BitVec.ofInt 2 1 ++ biasEnc 2 dr (-2) ++ biasEnc 2 dg (-2) ++ biasEnc 2 db (-2)] = _
  rw [ofInt_append_biasEnc _ _ (by omega) (by omega), ofInt_append_biasEnc _ _ (by omega) (by omega),
    ofInt_append_biasEnc _ _ (by omega) (by omega)]
  ring_nf

/-- The bytes `10gggggg` and `rrrrbbbb` as the sums of R137. -/
theorem encode_luma_bytes {dg drg dbg : Int} (h : (Instr.luma dg drg dbg).WellFormed) :
    encode (.luma dg drg dbg) = [BitVec.ofInt 8 (0x80 + (dg + 32)), BitVec.ofInt 8 ((drg + 8) * 16 + (dbg + 8))] := by
  obtain ⟨hg, hrg, hbg⟩ := h
  show [BitVec.ofInt 2 2 ++ biasEnc 6 dg (-32), BitVec.ofInt 4 (drg - -8) ++ biasEnc 4 dbg (-8)] = _
  rw [ofInt_append_biasEnc _ _ (by omega) (by omega), ofInt_append_biasEnc _ _ (by omega) (by omega)]
  ring_nf

end Sys2Proof

namespace Sys2Proof.Machine

/-- Row 1 (R133) while the run still fits its register: its byte at 62 or at the last pixel, else one more in `run`. -/
theorem Enc.takePixel_prev (e : Enc) (h : e.run.toNat ≤ 61) :
    e.takePixel e.prev =
      if e.run.toNat + 1 = 62 ∨ e.count + 1 = pixelCount e.cfg then
        { e with out := e.out ++ [BitVec.ofNat 8 (0xC0 + e.run.toNat)], run := 0, count := e.count + 1 }
      else { e with run := BitVec.ofNat 6 (e.run.toNat + 1), count := e.count + 1 } := by
  have hsucc : (e.run + 1).toNat = e.run.toNat + 1 := BitVec.toNat_add_of_lt (show e.run.toNat + 1 < 2 ^ 6 by omega)
  have hne : e.run + 1 ≠ 0 := by
    rw [Ne, ← BitVec.toNat_inj, hsucc]
    exact Nat.succ_ne_zero _
  have hbyte : encode (.rle (e.run.toNat + 1)) = [BitVec.ofNat 8 (0xC0 + e.run.toNat)] := by
    rw [← hsucc, encode_rle_byte _ hne, hsucc, Nat.add_sub_cancel]
  have hrun : e.run + 1 = BitVec.ofNat 6 (e.run.toNat + 1) := by
    rw [← hsucc, BitVec.ofNat_toNat, BitVec.setWidth_eq]
  simp only [Enc.takePixel, Enc.extendRun, if_true, hsucc, Config.runMax, decide_eq_true_eq]
  split_ifs
  · simp only [Enc.emit, hbyte]
  · simp only [hrun]

/-- Rows 2 and 3 (R134, R135): the flush, the slot number, `prev`. -/
theorem Enc.takePixel_index (e : Enc) {p : Pixel} (hp : p ≠ e.prev) (hc : Cache.read e.cache (slotHash p) = p) :
    e.takePixel p =
      { e with
        out := e.out ++ runFlush e.run ++ [BitVec.ofNat 8 (slotHash p).toNat], run := 0, prev := p,
        count := e.count + 1 } := by
  rw [Enc.takePixel, if_neg hp, Enc.flushRun_eq, Enc.codePixel, if_pos ((cacheHit_iff _ _).mpr hc), ← encode_index_byte]
  rfl

/-- Rows 2 and 4 to 7 (R134, R136 to R140): the flush, the chunk's bytes, cache and `prev`. -/
theorem Enc.takePixel_fresh (e : Enc) {p : Pixel} (hp : p ≠ e.prev) (hc : Cache.read e.cache (slotHash p) ≠ p) :
    e.takePixel p =
      { e with
        out := e.out ++ runFlush e.run ++ encode (freshChunk p e.prev), run := 0,
        cache := Cache.write e.cache (slotHash p) p, prev := p, count := e.count + 1 } := by
  rw [Enc.takePixel, if_neg hp, Enc.flushRun_eq, Enc.codePixel, if_neg (mt (cacheHit_iff _ _).mp hc)]
  rfl

/-- The whole step on a pixel that is neither a run nor in the cache. -/
theorem step_of_freshPixel {s : State} {rest : List Event} {p : Pixel} {bytes : List Byte} (h : s.pixelTurn rest p)
    (hp : p ≠ s.enc.prev) (hc : Cache.read s.enc.cache (slotHash p) ≠ p) (hb : encode (freshChunk p s.enc.prev) = bytes) :
    step s = .next { s with
      agenda := rest
      enc := { s.enc with
        out := s.enc.out ++ runFlush s.enc.run ++ bytes, run := 0,
        cache := Cache.write s.enc.cache (slotHash p) p, prev := p, count := s.enc.count + 1 } } := by
  rw [step_of_pixelTurn h, Enc.takePixel_fresh _ hp hc, hb]

/-- Row 4's chunk: the deltas in range are the ranges of `DIFF`'s fields. -/
theorem encode_freshChunk_diff {p prev : Pixel} (h : diffOk p prev = true) :
    encode (freshChunk p prev) = [BitVec.ofInt 8 (0x40 + ((deltasOf p prev).dr + 2) * 16 +
      ((deltasOf p prev).dg + 2) * 4 + ((deltasOf p prev).db + 2))] := by
  rw [freshChunk, if_pos h]
  exact encode_diff_byte ((diffOk_iff _ _).mp h).2

/-- Row 5's chunk: the luma differences in range are the ranges of `LUMA`'s fields. -/
theorem encode_freshChunk_luma {p prev : Pixel} (hd : diffOk p prev = false) (h : lumaOk p prev = true) :
    encode (freshChunk p prev) = [BitVec.ofInt 8 (0x80 + ((deltasOf p prev).dg + 32)),
      BitVec.ofInt 8 (((deltasOf p prev).drg + 8) * 16 + ((deltasOf p prev).dbg + 8))] := by
  rw [freshChunk, if_neg (Bool.eq_false_iff.mp hd), if_pos h]
  exact encode_luma_bytes ((lumaOk_iff _ _).mp h).2

/-- Rows 6 and 7: the literal that alpha asks for. -/
theorem encode_freshChunk_literal {p prev : Pixel} (hd : diffOk p prev = false) (hl : lumaOk p prev = false) :
    encode (freshChunk p prev) =
      if p.a = prev.a then [0xFE, p.r, p.g, p.b] else [0xFF, p.r, p.g, p.b, p.a] := by
  rw [freshChunk, if_neg (Bool.eq_false_iff.mp hd), if_neg (Bool.eq_false_iff.mp hl), apply_ite encode]
  rfl

/-- Settles O35: row 1 of the pixel step. -/
theorem encoderExtendsRun : Obligations.EncoderExtendsRun := by
  rintro s rest p h hrun rfl
  rw [step_of_pixelTurn h, Enc.takePixel_prev _ hrun]

/-- Settles O36: rows 2 and 3 of the pixel step. -/
theorem encoderEmitsIndex : Obligations.EncoderEmitsIndex := by
  intro s rest p h hp hc
  rw [step_of_pixelTurn h, Enc.takePixel_index _ hp hc]

/-- Settles O37: the fresh pixel's step with row 4's byte. -/
theorem encoderEmitsDiff : Obligations.EncoderEmitsDiff :=
  fun _ _ _ h hp hc hd => step_of_freshPixel h hp hc (encode_freshChunk_diff hd)

/-- Settles O38: the fresh pixel's step with row 5's bytes. -/
theorem encoderEmitsLuma : Obligations.EncoderEmitsLuma :=
  fun _ _ _ h hp hc hd hl => step_of_freshPixel h hp hc (encode_freshChunk_luma hd hl)

/-- Settles O39: the fresh pixel's step with the literal of row 6 or 7. -/
theorem encoderEmitsLiteral : Obligations.EncoderEmitsLiteral :=
  fun _ _ _ h hp hc hd hl => step_of_freshPixel h hp hc (encode_freshChunk_literal hd hl)

/-- A busy encoder that has taken every pixel performs the end step. -/
theorem encStep_finish {s : State} (hb : s.enc.phase = .busy) (hn : s.enc.count = pixelCount s.enc.cfg) :
    encStep s = .next { s with enc := s.enc.finish } := by
  simp only [encStep, hb]
  rw [if_neg (Nat.not_lt.mpr hn.ge), if_pos hn]

/-- Settles O40: the encoder's turn at `count = N` is the end step. -/
theorem encoderEndStep : Obligations.EncoderEndStep := by
  intro s rest ht hb hn
  rw [step_of_encTurn ht]
  exact encStep_finish hb hn

end Sys2Proof.Machine
end

section
/-! PROOFS of 43_decoder.md: the operands of the six chunks and what executing them answers (R163 to R168). -/

namespace Sys2Proof

/-- R113 on numbers: a field of a byte is its quotient modulo the field's size, and decoding it adds the bias. -/
theorem biasDec_extractLsb' (t : Byte) (start len : Nat) (lo : Int) :
    biasDec (t.extractLsb' start len) lo = (t.toNat / 2 ^ start % 2 ^ len : Nat) + lo := by
  rw [biasDec, BitVec.extractLsb'_toNat, Nat.shiftRight_eq_div_pow]

/-- The operands of `DIFF`: `t[5:4]`, `t[3:2]`, `t[1:0]`, each less 2 (R164). -/
theorem decodeDiff_eq (t : Byte) :
    decodeDiff t =
      .diff ((t.toNat / 16 % 4 : Nat) - 2) ((t.toNat / 4 % 4 : Nat) - 2) ((t.toNat % 4 : Nat) - 2) := by
  simp only [decodeDiff, biasDec_extractLsb', pow_zero, Nat.div_one]
  rfl

/-- The operands of `LUMA`: `t[5:0]` less 32, the nibbles of `u` less 8 (R165). -/
theorem decodeLuma_cons (t u : Byte) (rest : List Byte) :
    decodeLuma t (u :: rest) =
      .ok (.luma ((t.toNat % 64 : Nat) - 32) ((u.toNat / 16 : Nat) - 8) ((u.toNat % 16 : Nat) - 8), rest) := by
  have hhigh : u.toNat / 2 ^ 4 % 2 ^ 4 = u.toNat / 16 := Nat.mod_eq_of_lt (by omega)
  simp only [decodeLuma, biasDec_extractLsb', hhigh, pow_zero, Nat.div_one]
  rfl

end Sys2Proof

namespace Sys2Proof.Machine

/-- A chunk that reaches past the region raises before its effect (R165, R167, R168). -/
theorem chunkStep_short {s : State} {len : Nat} (e : Host.Outcome State Fault Refusal) (hr : s.dec.inRegion)
    (hc : s.dec.count < pixelCount s.dec.cfg) (hl : s.dec.remaining < len) :
    chunkStep len s e = .next (s.raiseDec .unexpectedEndOfStream) :=
  chunkStep_cut len e hr hc.ne hl

/-- The checks of a ready chunk pass, and its effect is the answer. -/
theorem chunkStep_of_readyFor {s : State} {len : Nat} (e : Host.Outcome State Fault Refusal) (h : s.dec.readyFor len) :
    chunkStep len s e = e := by
  obtain ⟨hr, hc, hl, _⟩ := h
  exact chunkStep_ready len e hr hc.ne hl

/-- A ready chunk of one pixel answers the common update, with the cache it is given (R169). -/
theorem putPixel_of_readyFor {s : State} {len : Nat} (p : Pixel) (cache : Cache) (h : s.dec.readyFor len) :
    chunkStep len s (putPixel len s p cache) = .next { s with dec := s.dec.afterPixel len p cache } := by
  rw [chunkStep_of_readyFor _ h]
  obtain ⟨_, hc, _, hch⟩ := h
  exact putPixel_eq len p cache ⟨hc, hch⟩

/-- Byte `j` of pixel `k` of a run is byte `j` of `prev` (R166). -/
theorem getElem?_runBytes (d : Dec) {n k j : Nat} (hk : k < n) (hj : j < (pixelBytes d.cfg.channels d.prev).length) :
    (runBytes d n)[k * (pixelBytes d.cfg.channels d.prev).length + j]? = (pixelBytes d.cfg.channels d.prev)[j]? := by
  induction n generalizing k with
  | zero => omega
  | succ n ih =>
    rw [runBytes, List.replicate_succ, List.flatten_cons]
    cases k with
    | zero => rw [Nat.zero_mul, Nat.zero_add, List.getElem?_append_left hj]
    | succ k =>
      rw [List.getElem?_append_right (by rw [Nat.succ_mul]; omega), Nat.succ_mul, Nat.add_right_comm, Nat.add_sub_cancel]
      exact ih (by omega)

/-- Each pixel of a run's output holds `prev` (R166). -/
theorem Dec.read_afterRun (d : Dec) (hch : d.cfg.channels = 3 ∨ d.cfg.channels = 4) {run k j : Nat} (hk : k < run)
    (hj : j < d.cfg.channels.toNat) :
    Memory.read (d.afterRun run).outbuf ((d.count + k) * d.cfg.channels.toNat + j) =
      (pixelBytes d.cfg.channels d.prev)[j]? := by
  have hlen : (pixelBytes d.cfg.channels d.prev).length = d.cfg.channels.toNat := by
    rw [pixelBytes_length, toNat_channels hch]
  have hend : k * d.cfg.channels.toNat + d.cfg.channels.toNat ≤ run * d.cfg.channels.toNat := by
    rw [← Nat.succ_mul]
    exact Nat.mul_le_mul_right _ hk
  rw [← getElem?_runBytes d hk (hlen ▸ hj), hlen, Dec.afterRun, Memory.read_writeBytes, runBytes_length d run hch,
    Nat.add_mul, if_pos (by omega), Nat.add_assoc, Nat.add_sub_cancel_left]

/-- A run leaves every address outside its pixels (R166). -/
theorem Dec.read_afterRun_outside (d : Dec) (hch : d.cfg.channels = 3 ∨ d.cfg.channels = 4) {run a : Nat}
    (ha : a < d.count * d.cfg.channels.toNat ∨ (d.count + run) * d.cfg.channels.toNat ≤ a) :
    Memory.read (d.afterRun run).outbuf a = Memory.read d.outbuf a := by
  refine Memory.read_writeBytes_outside _ _ _ _ ?_
  rwa [runBytes_length d run hch, ← Nat.add_mul]

/-- A run past the image raises before any pixel is written (R166). -/
theorem execRle_of_overrun {s : State} {run : Nat} (h : s.dec.readyFor 1) (hn : pixelCount s.dec.cfg < s.dec.count + run) :
    execRle run s = .next (s.raiseDec .pixelCountMismatch) := by
  rw [execRle, chunkStep_of_readyFor _ h, if_pos hn]

/-- A run that fits, in one equation (R166). -/
theorem execRle_of_fits {s : State} {run : Nat} (h : s.dec.readyFor 1) (h1 : 1 ≤ run)
    (hn : s.dec.count + run ≤ pixelCount s.dec.cfg) : execRle run s = .next { s with dec := s.dec.afterRun run } := by
  have ⟨_, _, _, hch⟩ := h
  rw [execRle, chunkStep_of_readyFor _ h, if_neg (Nat.not_lt.mpr hn),
    Dec.writeRun_eq run { s.dec with run := BitVec.ofNat 6 run } hch hn, if_neg (by omega)]
  rfl

/-- Settles O10: the meaning of `LUMA` is a chunk step of two bytes with the common update of the pixel of R120. -/
theorem lumaAddsDifferences : Obligations.LumaAddsDifferences :=
  ⟨fun t u rest h0 h1 => (decodeChunk_luma ⟨h0, h1⟩ _).trans (decodeLuma_cons t u rest),
    fun _ _ _ _ => ⟨chunkStep_short _, putPixel_of_readyFor _ _⟩⟩

/-- Settles O11: the run that fits ends in `Dec.afterRun`, whose output holds `prev` on the run's addresses alone. -/
theorem rleRepeatsPrev : Obligations.RleRepeatsPrev := by
  refine ⟨fun t rest h0 h1 => decodeChunk_rle ⟨h0, h1⟩ rest, fun run s h1 h => ?_⟩
  split_ifs with hn
  · exact execRle_of_overrun h hn
  · have ⟨_, _, _, hch⟩ := h
    exact ⟨(s.dec.afterRun run).outbuf, execRle_of_fits h h1 (Nat.not_lt.mp hn),
      fun _ _ hk hj => s.dec.read_afterRun hch hk hj, fun _ ha => s.dec.read_afterRun_outside hch ha⟩

/-- Settles O12: a chunk step of four bytes with the common update. -/
theorem rgbKeepsAlpha : Obligations.RgbKeepsAlpha :=
  ⟨fun _ _ _ _ => rfl, fun _ _ _ _ => ⟨chunkStep_short _, putPixel_of_readyFor _ _⟩⟩

/-- Settles O13: a chunk step of five bytes with the common update. -/
theorem rgbaTakesAllFour : Obligations.RgbaTakesAllFour :=
  ⟨fun _ _ _ _ _ => rfl, fun _ _ _ _ _ => ⟨chunkStep_short _, putPixel_of_readyFor _ _⟩⟩

/-- Settles O8: the common update of the slot's pixel, with the cache as it is. -/
theorem indexWritesSlotPixel : Obligations.IndexWritesSlotPixel :=
  ⟨fun _ rest h => decodeChunk_index h rest, fun _ _ => putPixel_of_readyFor _ _⟩

/-- Settles O9: the common update of the pixel of R119, which goes into the cache. -/
theorem diffAddsDeltas : Obligations.DiffAddsDeltas :=
  ⟨fun t rest h0 h1 => decodeDiff_eq t ▸ decodeChunk_diff ⟨h0, h1⟩ rest, fun _ _ _ _ => putPixel_of_readyFor _ _⟩

end Sys2Proof.Machine
end

section
/-! PROOFS of 70_reset_and_hazards.md: what an accepted start command sets (R221). -/

namespace Sys2Proof.Machine

/-- A start command for a decoder that is not `BUSY` is accepted: the step is the decoder's start step (R31, R161). -/
theorem step_startDecode {s : State} {bytes : List Byte} {rest : List Event} (h : s.agenda = .startDecode bytes :: rest)
    (hb : s.dec.phase ≠ .busy) : step s = decStart bytes { s with agenda := rest } := by
  rw [step_event h]
  exact if_neg hb

/-- A start command for an encoder that is not `BUSY` is accepted: the step is the encoder's start step (R30, R131). -/
theorem step_startEncode {s : State} {cfg : ImageConfig} {pixels : List Byte} {rest : List Event}
    (h : s.agenda = .startEncode cfg pixels :: rest) (hb : s.enc.phase ≠ .busy) :
    step s = .next { s with agenda := rest, enc := s.enc.start cfg pixels } := by
  rw [step_event h]
  exact if_neg hb

/-- A decoder that its start step leaves `BUSY` holds the start values: the other answers of the step raise (R161). -/
theorem decStart_begin_of_busy {s t : State} {bytes : List Byte} (h : decStart bytes s = .next t)
    (hb : t.dec.phase = .busy) : ∃ cfg, t.dec = (s.latchStream bytes).dec.begin cfg := by
  rcases decStart_next h with ⟨k, _, rfl⟩ | ⟨_, _, _, rfl⟩ | ⟨cfg, _, _, _, rfl⟩
  · simp at hb
  · simp at hb
  · exact ⟨cfg, rfl⟩

/-- An encoder that its start step leaves `BUSY` holds the start values: the other answer of the step raises (R131). -/
theorem Enc.start_eq_of_busy {e : Enc} {cfg : ImageConfig} {pixels : List Byte}
    (hb : (e.start cfg pixels).phase = .busy) :
    e.start cfg pixels = { e with
      err := none, cfg := cfg, pixels := pixels, cache := Cache.init, prev := Config.prevInit, run := 0, count := 0,
      out := encode (.header cfg), phase := .busy } := by
  rcases e.start_cases cfg pixels with ⟨k, hraise⟩ | ⟨_, _, hstart⟩
  · simp [hraise] at hb
  · exact hstart

/-- Settles O31: a unit left `BUSY` by its accepted start holds the start values, whose cache reads as its initial value
in every slot. -/
theorem startInitialises : Obligations.StartInitialises := by
  constructor
  · intro s t bytes rest h hb hs ht
    rw [step_startDecode h hb] at hs
    obtain ⟨cfg, hd⟩ := decStart_begin_of_busy hs ht
    rw [hd]
    exact ⟨Cache.read_init, rfl, rfl, rfl, rfl, rfl⟩
  · intro s t cfg pixels rest h hb hs ht
    rw [step_startEncode h hb] at hs
    have he : t.enc = s.enc.start cfg pixels := by rw [← Host.Outcome.next.inj hs]
    rw [he] at ht ⊢
    rw [Enc.start_eq_of_busy ht]
    exact ⟨Cache.read_init, rfl, rfl, rfl, rfl⟩

end Sys2Proof.Machine
end

section
/-! PROOFS of 30_encoding.md: the decoder and the encoder undo each other (sections 3 and 4). -/

namespace Sys2Proof

/-- The length of R61, R62, R64, for every instruction. -/
theorem encode_length (i : Instr) : (encode i).length = lengthOf i := by
  cases i <;> rfl

theorem unbe32_toNat (b0 b1 b2 b3 : Byte) :
    (unbe32 b0 b1 b2 b3).toNat = ((b0.toNat * 256 + b1.toNat) * 256 + b2.toNat) * 256 + b3.toNat := by
  rw [unbe32, BitVec.toNat_append, ← Nat.shiftLeft_add_eq_or_of_lt b3.isLt, BitVec.toNat_append,
    ← Nat.shiftLeft_add_eq_or_of_lt b2.isLt, BitVec.toNat_append, ← Nat.shiftLeft_add_eq_or_of_lt b1.isLt]
  simp only [Nat.shiftLeft_eq]

/-- Four bytes of a word, read big-endian, give the word. -/
theorem unbe32_be32 (v : BitVec 32) :
    unbe32 (v.extractLsb' 24 8) (v.extractLsb' 16 8) (v.extractLsb' 8 8) (v.extractLsb' 0 8) = v := by
  apply BitVec.eq_of_toNat_eq
  simp only [unbe32_toNat, BitVec.extractLsb'_toNat, Nat.shiftRight_eq_div_pow]
  omega

/-- The four bytes of a word read big-endian are those it was read from. -/
theorem be32_unbe32 (b0 b1 b2 b3 : Byte) : be32 (unbe32 b0 b1 b2 b3) = [b0, b1, b2, b3] := by
  simp only [be32, List.cons.injEq, and_true, ← BitVec.toNat_inj, BitVec.extractLsb'_toNat, unbe32_toNat,
    Nat.shiftRight_eq_div_pow]
  omega

/-- `HEADER` is read from its own bytes and from no others (R61, R91). -/
theorem decodeHeader_ok_iff {bs rest : List Byte} {cfg : ImageConfig} :
    decodeHeader bs = .ok (cfg, rest) ↔ encode (.header cfg) ++ rest = bs := by
  constructor
  · intro h
    unfold decodeHeader at h
    split at h
    · split_ifs at h with hm
      cases h
      simp only [encode, be32_unbe32, ← hm]
      rfl
    · cases h
  · rintro rfl
    obtain ⟨w, h, c, cs⟩ := cfg
    show Except.ok (ImageConfig.mk (unbe32 _ _ _ _) (unbe32 _ _ _ _) c cs, rest) = _
    rw [unbe32_be32, unbe32_be32]

/-- `END` is read from the marker and from nothing else (R62). -/
theorem decodeTrailer_ok_iff {bs rest : List Byte} {i : Instr} :
    decodeTrailer bs = .ok (i, rest) ↔ i = .endMarker ∧ endMarkerBytes ++ rest = bs := by
  constructor
  · intro h
    unfold decodeTrailer at h
    split_ifs at h with hm
    cases h
    exact ⟨rfl, by rw [← hm, List.take_append_drop]⟩
  · rintro ⟨rfl, rfl⟩
    exact decodeTrailer_endMarker rest

theorem toNat_ofInt_byte {x : Int} (h0 : 0 ≤ x) (h1 : x < 256) : ((BitVec.ofInt 8 x).toNat : Int) = x := by
  rw [BitVec.toNat_ofInt]
  omega

theorem decodeChunk_encode_index (slot : BitVec 6) (rest : List Byte) :
    decodeChunk (encode (.index slot) ++ rest) = .ok (.index slot, rest) := by
  have ht : (BitVec.ofNat 8 slot.toNat).toNat = slot.toNat := by
    rw [BitVec.toNat_ofNat]
    omega
  have hslot : (BitVec.ofNat 8 slot.toNat).extractLsb' 0 6 = slot := by
    apply BitVec.eq_of_toNat_eq
    rw [BitVec.extractLsb'_toNat, ht, Nat.shiftRight_zero, Nat.mod_eq_of_lt slot.isLt]
  rw [Machine.encode_index_byte, List.singleton_append, decodeChunk_index (by omega), hslot]

theorem decodeChunk_encode_diff {dr dg db : Int} (h : (Instr.diff dr dg db).WellFormed) (rest : List Byte) :
    decodeChunk (encode (.diff dr dg db) ++ rest) = .ok (.diff dr dg db, rest) := by
  have hb := encode_diff_byte h
  obtain ⟨hr, hg, hb'⟩ := h
  have ht := toNat_ofInt_byte (x := 0x40 + (dr + 2) * 16 + (dg + 2) * 4 + (db + 2)) (by omega) (by omega)
  rw [hb, List.singleton_append, decodeChunk_diff (by omega), decodeDiff_eq]
  congr 3 <;> omega

theorem decodeChunk_encode_luma {dg drg dbg : Int} (h : (Instr.luma dg drg dbg).WellFormed) (rest : List Byte) :
    decodeChunk (encode (.luma dg drg dbg) ++ rest) = .ok (.luma dg drg dbg, rest) := by
  have hb := encode_luma_bytes h
  obtain ⟨hg, hrg, hbg⟩ := h
  have ht := toNat_ofInt_byte (x := 0x80 + (dg + 32)) (by omega) (by omega)
  have hu := toNat_ofInt_byte (x := (drg + 8) * 16 + (dbg + 8)) (by omega) (by omega)
  rw [hb, List.cons_append, List.singleton_append, decodeChunk_luma (by omega), decodeLuma_cons]
  congr 3 <;> omega

/-- The byte of a run of 1 to 62 pixels (R68). -/
theorem encode_rle_of_wellFormed {run : Nat} (h : (Instr.rle run).WellFormed) :
    encode (.rle run) = [BitVec.ofNat 8 (0xC0 + (run - 1))] := by
  obtain ⟨h1, h2⟩ := h
  have hrun : (BitVec.ofNat 6 run).toNat = run := Nat.mod_eq_of_lt (by have : run ≤ 62 := h2; omega)
  have hne : BitVec.ofNat 6 run ≠ 0 := fun hz => absurd (hz ▸ hrun : (0 : BitVec 6).toNat = run) (Nat.ne_of_lt h1)
  rw [← hrun]
  exact Machine.encode_rle_byte _ hne

/-- The same byte, by the pixels before the last one of the run. -/
theorem encode_rle_succ {run : Nat} (h : run ≤ 61) : encode (.rle (run + 1)) = [BitVec.ofNat 8 (0xC0 + run)] := by
  have hwf : (Instr.rle (run + 1)).WellFormed := ⟨Nat.succ_pos _, Nat.succ_le_succ h⟩
  rw [encode_rle_of_wellFormed hwf, Nat.add_sub_cancel]

theorem decodeChunk_encode_rle {run : Nat} (h : (Instr.rle run).WellFormed) (rest : List Byte) :
    decodeChunk (encode (.rle run) ++ rest) = .ok (.rle run, rest) := by
  rw [encode_rle_of_wellFormed h]
  obtain ⟨h1, h2⟩ := h
  have h2' : run ≤ 62 := h2
  have ht : (BitVec.ofNat 8 (0xC0 + (run - 1))).toNat = 0xC0 + (run - 1) := by
    rw [BitVec.toNat_ofNat]
    omega
  rw [List.singleton_append, decodeChunk_rle (by omega), BitVec.extractLsb'_toNat, ht, Nat.shiftRight_zero]
  congr 3
  omega

/-- Settles O1: the two records are read from their own bytes alone, and each chunk's first byte lies in its range of R63. -/
theorem decodeOfEncode : Obligations.DecodeOfEncode := by
  intro i rest h
  cases i with
  | rgb r g b => rfl
  | rgba r g b a => rfl
  | index slot => exact decodeChunk_encode_index slot rest
  | diff dr dg db => exact decodeChunk_encode_diff h rest
  | luma dg drg dbg => exact decodeChunk_encode_luma h rest
  | rle run => exact decodeChunk_encode_rle h rest
  | header cfg => simp only [frameOf, decode, decodeHeader_ok_iff.mpr (rfl : encode (.header cfg) ++ rest = _), Except.map]
  | endMarker => exact decodeTrailer_endMarker rest

/-- A byte of `DIFF`'s range gives deltas in range, whose byte it is (R66). -/
theorem encode_decodeDiff {t : Byte} (ht : 0x40 ≤ t.toNat ∧ t.toNat ≤ 0x7F) :
    (decodeDiff t).WellFormed ∧ encode (decodeDiff t) = [t] := by
  have hwf : (Instr.diff ((t.toNat / 16 % 4 : Nat) - 2) ((t.toNat / 4 % 4 : Nat) - 2) ((t.toNat % 4 : Nat) - 2)).WellFormed := by
    refine ⟨?_, ?_, ?_⟩ <;> omega
  rw [decodeDiff_eq]
  refine ⟨hwf, ?_⟩
  rw [encode_diff_byte hwf, List.cons.injEq, ← BitVec.toNat_inj, BitVec.toNat_ofInt]
  refine ⟨?_, rfl⟩
  omega

/-- The two bytes of `LUMA` give luma differences in range, whose bytes they are (R67). -/
theorem encode_of_decodeLuma {t : Byte} {tail rest : List Byte} {i : Instr} (ht : 0x80 ≤ t.toNat ∧ t.toNat ≤ 0xBF)
    (h : decodeLuma t tail = .ok (i, rest)) : i.WellFormed ∧ encode i ++ rest = t :: tail := by
  cases tail with
  | nil => cases h
  | cons u tail =>
    rw [decodeLuma_cons] at h
    cases h
    have hwf : (Instr.luma ((t.toNat % 64 : Nat) - 32) ((u.toNat / 16 : Nat) - 8) ((u.toNat % 16 : Nat) - 8)).WellFormed := by
      refine ⟨?_, ?_, ?_⟩ <;> omega
    refine ⟨hwf, ?_⟩
    rw [encode_luma_bytes hwf, List.cons_append, List.singleton_append, List.cons.injEq, List.cons.injEq]
    refine ⟨?_, ?_, rfl⟩ <;> rw [← BitVec.toNat_inj, BitVec.toNat_ofInt] <;> omega

/-- A byte of `RLE`'s range gives a run of 1 to 62 pixels, whose byte it is (R68). -/
theorem encode_rle_of_byte {t : Byte} (ht : 0xC0 ≤ t.toNat ∧ t.toNat ≤ 0xFD) :
    (Instr.rle ((t.extractLsb' 0 6).toNat + 1)).WellFormed ∧ encode (.rle ((t.extractLsb' 0 6).toNat + 1)) = [t] := by
  have hrun : (t.extractLsb' 0 6).toNat = t.toNat - 0xC0 := by
    rw [BitVec.extractLsb'_toNat, Nat.shiftRight_zero]
    omega
  have hsmall : t.toNat - 0xC0 ≤ 61 := by omega
  rw [hrun, encode_rle_succ hsmall, Nat.add_sub_of_le ht.1, BitVec.ofNat_toNat, BitVec.setWidth_eq]
  exact ⟨⟨Nat.succ_pos _, Nat.succ_le_succ hsmall⟩, rfl⟩

/-- A chunk that decodes is well formed, and its encoding stood at the front of the bytes. -/
theorem encode_of_decodeChunk {bs rest : List Byte} {i : Instr} (h : decodeChunk bs = .ok (i, rest)) :
    i.WellFormed ∧ encode i ++ rest = bs := by
  cases bs with
  | nil => cases h
  | cons t tail =>
    rcases firstByte_ranges t with rfl | rfl | ht | ht | ht | ht
    · match tail, h with
      | r :: g :: b :: _, h =>
        cases h
        exact ⟨trivial, rfl⟩
    · match tail, h with
      | r :: g :: b :: a :: _, h =>
        cases h
        exact ⟨trivial, rfl⟩
    · rw [decodeChunk_index ht] at h
      cases h
      refine ⟨trivial, ?_⟩
      rw [Machine.encode_index_byte, BitVec.extractLsb'_toNat, Nat.shiftRight_zero, Nat.mod_eq_of_lt (by omega),
        BitVec.ofNat_toNat, BitVec.setWidth_eq, List.singleton_append]
    · rw [decodeChunk_diff ht] at h
      cases h
      obtain ⟨hwf, he⟩ := encode_decodeDiff ht
      exact ⟨hwf, by rw [he, List.singleton_append]⟩
    · rw [decodeChunk_luma ht] at h
      exact encode_of_decodeLuma ht h
    · rw [decodeChunk_rle ht] at h
      cases h
      obtain ⟨hwf, he⟩ := encode_rle_of_byte ht
      exact ⟨hwf, by rw [he, List.singleton_append]⟩

/-- Settles O2: frame by frame, the decoder answers an instruction of that frame that is read from its own bytes. -/
theorem encodeOfDecode : Obligations.EncodeOfDecode := by
  intro f bs rest i h
  cases f with
  | start =>
    cases hd : decodeHeader bs with
    | error r => simp [decode, hd, Except.map] at h
    | ok x =>
      simp only [decode, hd, Except.map] at h
      cases h
      exact ⟨trivial, rfl, decodeHeader_ok_iff.mp hd⟩
  | chunk =>
    have hf := frameOf_of_decodeChunk h
    obtain ⟨hw, he⟩ := encode_of_decodeChunk h
    exact ⟨hw, hf, he⟩
  | trailer =>
    obtain ⟨rfl, he⟩ := decodeTrailer_ok_iff.mp h
    exact ⟨trivial, rfl, he⟩

/-- Settles O4, word by word. -/
theorem specWordsDecode : Obligations.SpecWordsDecode := by
  unfold Obligations.SpecWordsDecode
  decide

end Sys2Proof
end

section
/-! PROOFS of 40_header.md: `HDR_ENC` and `HDR_DEC` (R90 to R94). -/

namespace Sys2Proof

/-- Fewer than 14 bytes are no header (R91). -/
theorem decodeHeader_of_short {bs : List Byte} (h : bs.length < 14) : decodeHeader bs = .error .truncatedHeader := by
  unfold decodeHeader
  split
  · simp only [List.length_cons] at h
    omega
  · rfl

/-- The four fields at their offsets in a header (R61). -/
def headerFields (bs : List Byte) : ImageConfig :=
  { width := unbe32 (bs.getD 4 0) (bs.getD 5 0) (bs.getD 6 0) (bs.getD 7 0)
    height := unbe32 (bs.getD 8 0) (bs.getD 9 0) (bs.getD 10 0) (bs.getD 11 0)
    channels := bs.getD 12 0
    colorspace := bs.getD 13 0 }

/-- On 14 bytes or more the magic is compared and the fields are read (R91). -/
theorem decodeHeader_of_long {bs : List Byte} (h : 14 ≤ bs.length) :
    decodeHeader bs = if bs.take 4 = magic then .ok (headerFields bs, bs.drop 14) else .error .badMagic := by
  match bs, h with
  | _ :: _ :: _ :: _ :: _ :: _ :: _ :: _ :: _ :: _ :: _ :: _ :: _ :: _ :: _, _ => rfl

end Sys2Proof

namespace Sys2Proof.Machine

/-- The checks of R92 as the statements write them. -/
theorem configError_eq (cfg : ImageConfig) :
    configError cfg =
      if cfg.width = 0 ∨ cfg.height = 0 then some .invalidDimension
      else if ¬(cfg.channels = 3 ∨ cfg.channels = 4) then some .invalidChannelCount
      else if ¬(cfg.colorspace = 0 ∨ cfg.colorspace = 1) then some .invalidColorspace
      else none := by
  simp only [configError, not_or]

/-- No check of R92 fails exactly on the legal tuples. -/
theorem configError_eq_none_iff (cfg : ImageConfig) :
    configError cfg = none ↔
      cfg.width ≠ 0 ∧ cfg.height ≠ 0 ∧ (cfg.channels = 3 ∨ cfg.channels = 4) ∧ (cfg.colorspace = 0 ∨ cfg.colorspace = 1) := by
  rw [configError_eq]
  constructor
  · intro h
    split_ifs at h with hdim hchan hcol
    rw [not_or] at hdim
    exact ⟨hdim.1, hdim.2, hchan, hcol⟩
  · rintro ⟨hw, hh, hchan, hcol⟩
    rw [if_neg (not_or.mpr ⟨hw, hh⟩), if_neg (not_not.mpr hchan), if_neg (not_not.mpr hcol)]

theorem hdrEnc_ok_iff {cfg : ImageConfig} {bytes : List Byte} :
    hdrEnc cfg = .ok bytes ↔ configError cfg = none ∧ bytes = encode (.header cfg) := by
  cases h : configError cfg <;> simp [hdrEnc, h, eq_comm]

theorem hdrEnc_error_iff {cfg : ImageConfig} : (∃ k, hdrEnc cfg = .error k) ↔ configError cfg ≠ none := by
  cases h : configError cfg <;> simp [hdrEnc, h]

/-- `HDR_DEC` accepts exactly the bytes that begin with the header of a legal tuple (R91). -/
theorem hdrDec_ok_iff {cfg : ImageConfig} {bytes : List Byte} :
    hdrDec bytes = .ok cfg ↔ configError cfg = none ∧ ∃ rest, encode (.header cfg) ++ rest = bytes := by
  simp only [← decodeHeader_ok_iff]
  cases hd : decodeHeader bytes with
  | error r => simp [hdrDec, hd]
  | ok x =>
    obtain ⟨cfg', rest⟩ := x
    cases hc : configError cfg' with
    | none =>
      simp only [hdrDec, hd, hc, Except.ok.injEq, Prod.mk.injEq, exists_and_left, exists_eq', and_true]
      exact ⟨fun h => h ▸ ⟨hc, rfl⟩, fun h => h.2⟩
    | some k =>
      simp only [hdrDec, hd, hc, reduceCtorEq, Except.ok.injEq, Prod.mk.injEq, exists_and_left, exists_eq', and_true,
        false_iff, not_and]
      rintro h rfl
      rw [hc] at h
      cases h

/-- Settles O5: what the two operations accept is one set of headers. -/
theorem headerRoundTrip : Obligations.HeaderRoundTrip := by
  refine ⟨fun cfg bytes rest h => ?_, fun cfg bytes hlen h => ?_, fun cfg => ?_⟩
  · obtain ⟨hc, rfl⟩ := hdrEnc_ok_iff.mp h
    exact hdrDec_ok_iff.mpr ⟨hc, rest, rfl⟩
  · obtain ⟨hc, rest, rfl⟩ := hdrDec_ok_iff.mp h
    have hrest : rest = [] := by
      rw [List.length_append, encode_length] at hlen
      exact List.length_eq_zero_iff.mp (Nat.add_left_cancel (n := 14) hlen)
    exact hdrEnc_ok_iff.mpr ⟨hc, by rw [hrest, List.append_nil]⟩
  · rw [hdrEnc_error_iff, ← configError_eq_none_iff]

/-- `HDR` after an operation on these fields: the error of the checks of R92, or the result. -/
def Hdr.answer (h : Hdr) (cfg : ImageConfig) (result : HdrResult) : Hdr :=
  match configError cfg with
  | some k => h.raise k
  | none => { h with err := none, phase := .done, result := result }

/-- The answer by the checks of R92 in their order. -/
theorem Hdr.answer_checks (h : Hdr) (cfg : ImageConfig) (result : HdrResult) :
    if cfg.width = 0 ∨ cfg.height = 0 then
      (h.answer cfg result).phase = .error ∧ (h.answer cfg result).err = some .invalidDimension
    else if ¬(cfg.channels = 3 ∨ cfg.channels = 4) then
      (h.answer cfg result).phase = .error ∧ (h.answer cfg result).err = some .invalidChannelCount
    else if ¬(cfg.colorspace = 0 ∨ cfg.colorspace = 1) then
      (h.answer cfg result).phase = .error ∧ (h.answer cfg result).err = some .invalidColorspace
    else (h.answer cfg result).phase = .done ∧ (h.answer cfg result).err = none ∧
      (h.answer cfg result).result = result := by
  unfold Hdr.answer
  rw [configError_eq]
  split_ifs <;> simp

theorem Hdr.encodeHeader_eq (h : Hdr) (cfg : ImageConfig) :
    h.encodeHeader cfg = h.answer cfg (.header (encode (.header cfg))) := by
  unfold Hdr.encodeHeader Hdr.answer hdrEnc
  cases configError cfg <;> rfl

theorem Hdr.decodeHeader_of_error (h : Hdr) {bytes : List Byte} {r : Reject}
    (hd : Sys2Proof.decodeHeader bytes = .error r) : h.decodeHeader bytes = h.raise (rejectKind r) := by
  simp only [Hdr.decodeHeader, hdrDec, hd]

theorem Hdr.decodeHeader_of_ok (h : Hdr) {bytes rest : List Byte} {cfg : ImageConfig}
    (hd : Sys2Proof.decodeHeader bytes = .ok (cfg, rest)) : h.decodeHeader bytes = h.answer cfg (.fields cfg) := by
  simp only [Hdr.decodeHeader, hdrDec, hd, Hdr.answer]
  cases configError cfg <;> rfl

theorem step_hdrEnc {s : State} {cfg : ImageConfig} {rest : List Event} (h : s.agenda = .hdrEnc cfg :: rest) :
    step s = .next { s with agenda := rest, hdr := s.hdr.encodeHeader cfg } := step_event h

theorem step_hdrDec {s : State} {bytes : List Byte} {rest : List Event} (h : s.agenda = .hdrDec bytes :: rest) :
    step s = .next { s with agenda := rest, hdr := s.hdr.decodeHeader bytes } := step_event h

/-- Settles O6: the 14 bytes are the answer to the checks of R92. -/
theorem hdrEncChecksInOrder : Obligations.HdrEncChecksInOrder := by
  intro s cfg rest h
  refine ⟨_, step_hdrEnc h, rfl, rfl, rfl, ?_⟩
  have hbytes : encode (.header cfg) =
      [0x71, 0x6F, 0x69, 0x66] ++ be32 cfg.width ++ be32 cfg.height ++ [cfg.channels, cfg.colorspace] := rfl
  rw [← hbytes, Hdr.encodeHeader_eq]
  exact Hdr.answer_checks _ _ _

/-- Settles O7: the length and the magic are the decoder's own tests, the rest are the checks of R92. -/
theorem hdrDecChecksInOrder : Obligations.HdrDecChecksInOrder := by
  intro s bytes rest h
  refine ⟨_, step_hdrDec h, rfl, rfl, rfl, ?_⟩
  split_ifs with hlen hmagic
  · rw [Hdr.decodeHeader_of_error _ (decodeHeader_of_short hlen)]
    exact ⟨rfl, rfl⟩
  · have hd := decodeHeader_of_long (Nat.not_lt.mp hlen)
    rw [if_neg (show bytes.take 4 ≠ magic from hmagic)] at hd
    rw [Hdr.decodeHeader_of_error _ hd]
    exact ⟨rfl, rfl⟩
  · have hd := decodeHeader_of_long (Nat.not_lt.mp hlen)
    rw [if_pos (show bytes.take 4 = magic from not_not.mp hmagic)] at hd
    rw [Hdr.decodeHeader_of_ok _ hd]
    exact Hdr.answer_checks s.hdr (headerFields bytes) _

end Sys2Proof.Machine
end

section
/-! PROOFS of 41_pixel_arith_cache.md: the hash, the range tests, the inverse laws, who writes the cache. -/

namespace Sys2Proof.Machine

/-- A byte plus the delta from it to another wraps to that other byte. -/
theorem wrap8_add_delta (x y : Byte) : wrap8 (y.toNat + delta x y) = x := by
  have h : (256 : Int) ∣ y.toNat + delta x y - x.toNat := by
    have := s8_congr ((x.toNat : Int) - y.toNat)
    unfold delta
    omega
  rw [wrap8_congr h, wrap8_toNat]

/-- The luma form of the delta: `dg` and the difference to it, wrapped again, add up to the same byte. -/
theorem wrap8_add_luma (x y : Byte) (dg : Int) : wrap8 (y.toNat + dg + s8 (delta x y - dg)) = x := by
  have h : (256 : Int) ∣ y.toNat + dg + s8 (delta x y - dg) - (y.toNat + delta x y) := by
    have := s8_congr (delta x y - dg)
    omega
  rw [wrap8_congr h, wrap8_add_delta]

/-- Settles O47: each channel by its own law; alpha is kept by the tests. -/
theorem inverseLaws : Obligations.InverseLaws := by
  intro p prev
  constructor
  · intro h
    obtain ⟨ha, _⟩ := (diffOk_iff p prev).mp h
    simp only [applyDiff, deltasOf, wrap8_add_delta, ← ha]
  · intro h
    obtain ⟨ha, _⟩ := (lumaOk_iff p prev).mp h
    simp only [applyLuma, deltasOf, wrap8_add_delta, wrap8_add_luma, ← ha]

/-- Against a `dg` of `LUMA`'s range the second wrap of a luma difference decides nothing: the exact difference lies in
-159..160, where only the values -8..7 are read as -8..7. -/
theorem s8_luma_range {d dg : Int} (hd : -128 ≤ d ∧ d ≤ 127) (hg : -32 ≤ dg ∧ dg ≤ 31) :
    (-8 ≤ s8 (d - dg) ∧ s8 (d - dg) ≤ 7) ↔ -8 ≤ d - dg ∧ d - dg ≤ 7 := by
  have h1 := s8_bounds (d - dg)
  have h2 := s8_congr (d - dg)
  omega

/-- Settles O48: the ranges of `DIFF` keep the luma differences in -3..3, where the second wrap decides nothing. -/
theorem lumaTestLaws : Obligations.LumaTestLaws := by
  intro p prev
  have hr : -128 ≤ (deltasOf p prev).dr ∧ (deltasOf p prev).dr ≤ 127 := s8_bounds _
  have hb : -128 ≤ (deltasOf p prev).db ∧ (deltasOf p prev).db ≤ 127 := s8_bounds _
  have hexact : lumaOk p prev = true ↔ p.a = prev.a ∧ (-32 ≤ (deltasOf p prev).dg ∧ (deltasOf p prev).dg ≤ 31) ∧
      (-8 ≤ (deltasOf p prev).dr - (deltasOf p prev).dg ∧ (deltasOf p prev).dr - (deltasOf p prev).dg ≤ 7) ∧
      (-8 ≤ (deltasOf p prev).db - (deltasOf p prev).dg ∧ (deltasOf p prev).db - (deltasOf p prev).dg ≤ 7) := by
    rw [lumaOk_iff]
    refine and_congr_right fun _ => and_congr_right fun hg => and_congr ?_ ?_
    · exact s8_luma_range hr hg
    · exact s8_luma_range hb hg
  refine ⟨fun h => ?_, hexact⟩
  obtain ⟨ha, h⟩ := (diffOk_iff p prev).mp h
  exact hexact.mpr ⟨ha, by omega⟩

/-- Settles O49: a sum mod 64 is the sum of its terms mod 64. -/
theorem hashKeepsSixBits : Obligations.HashKeepsSixBits := by
  intro p
  have hexact : (slotHash p).toNat = (p.r.toNat * 3 + p.g.toNat * 5 + p.b.toNat * 7 + p.a.toNat * 11) % 64 := rfl
  refine ⟨hexact, BitVec.eq_of_toNat_eq ?_⟩
  rw [hexact]
  simp only [BitVec.toNat_add, BitVec.toNat_mul, BitVec.toNat_setWidth, BitVec.ofNat_eq_ofNat, BitVec.toNat_ofNat]
  omega

/-- Settles O50: executing a chunk changes the cache by the common update alone, and the encoder by its row of a fresh
pixel alone. -/
theorem onlyFreshChunksWriteCache : Obligations.OnlyFreshChunksWriteCache := by
  constructor
  · intro i s t h hne
    cases i with
    | rgb r g b => exact .inl ⟨r, g, b, rfl⟩
    | rgba r g b a => exact .inr (.inl ⟨r, g, b, a, rfl⟩)
    | diff dr dg db => exact .inr (.inr (.inl ⟨dr, dg, db, rfl⟩))
    | luma dg drg dbg => exact .inr (.inr (.inr (.inl ⟨dg, drg, dbg, rfl⟩)))
    | header cfg => exact .inr (.inr (.inr (.inr ⟨cfg, rfl⟩)))
    | index slot =>
      rcases (chunkStep_putPixel_next h).2 with ⟨k, rfl⟩ | ⟨_, _, _, rfl⟩ <;> exact absurd rfl hne
    | rle run =>
      rcases (execRle_next h).2 with ⟨k, rfl⟩ | ⟨_, _, _, _, rfl⟩ <;> exact absurd rfl hne
    | endMarker =>
      rcases (finishStep_next h).2 with ⟨_, rfl⟩ | ⟨_, _, rfl⟩ | ⟨_, _, rfl⟩ <;> exact absurd rfl hne
  · intro e p hne
    by_cases hp : p = e.prev
    · rw [Enc.takePixel, if_pos hp, Enc.extendRun_fields] at hne
      exact absurd rfl hne
    · by_cases hc : Cache.read e.cache (slotHash p) = p
      · rw [Enc.takePixel_index e hp hc] at hne
        exact absurd rfl hne
      · exact ⟨hp, hc, by rw [Enc.takePixel_fresh e hp hc]⟩

end Sys2Proof.Machine
end

section
/-! PROOFS of 43_decoder.md: the start step, the chunk step's checks, the finish step, and what each instruction leaves
unchanged. -/

namespace Sys2Proof.Machine

/-- Every chunk begins with the checks of R162 on its own length. -/
theorem exec_chunk_eq {i : Instr} (h : frameOf i = .chunk) (s : State) :
    ∃ effect, exec i s = chunkStep (lengthOf i) s effect := by
  cases i with
  | rgb r g b => exact ⟨_, rfl⟩
  | rgba r g b a => exact ⟨_, rfl⟩
  | index slot => exact ⟨_, rfl⟩
  | diff dr dg db => exact ⟨_, rfl⟩
  | luma dg drg dbg => exact ⟨_, rfl⟩
  | rle run => exact ⟨_, rfl⟩
  | header cfg => cases h
  | endMarker => cases h

/-- Settles O17: the count is the first check of every chunk. -/
theorem completeImageRefusesChunk : Obligations.CompleteImageRefusesChunk := by
  intro i s hf hr hc
  obtain ⟨effect, he⟩ := exec_chunk_eq hf s
  rw [he, chunkStep_complete _ _ hr hc]

/-- Settles O19: each instruction tests its place first. -/
theorem instructionsStopOutsideTheirStep : Obligations.InstructionsStopOutsideTheirStep := by
  refine ⟨fun i s hf hr => ?_, fun _ _ hb => if_pos hb, fun _ ht => if_neg ht⟩
  obtain ⟨effect, he⟩ := exec_chunk_eq hf s
  rw [he, chunkStep_outside _ _ hr]

theorem decStep_chunk {s : State} {i : Instr} {rest : List Byte} (h : s.dec.inRegion)
    (hd : decode .chunk s.dec.region = .ok (i, rest)) : decStep s = exec i s := by
  obtain ⟨hb, hp⟩ := h
  simp only [decStep, hb, if_pos hp, hd]

theorem decStep_cut {s : State} {r : Reject} (h : s.dec.inRegion) (hd : decode .chunk s.dec.region = .error r) :
    decStep s = .next (s.raiseDec
      (if s.dec.count = pixelCount s.dec.cfg then .pixelCountMismatch else .unexpectedEndOfStream)) := by
  obtain ⟨hb, hp⟩ := h
  simp only [decStep, hb, if_pos hp, hd, cutChunk]
  split_ifs <;> rfl

/-- At the trailer the decoder performs the finish step on the outcome of the comparison (R171). -/
theorem decStep_atTrailer {s : State} (h : s.dec.atTrailer) :
    decStep s = finishStep s (decide (s.dec.trailer.take Config.endLen = endMarkerBytes)) := by
  obtain ⟨hb, hp⟩ := h
  simp only [decStep, hb, hp, lt_irrefl, if_true, if_false, decode, decodeTrailer]
  split_ifs with hm
  · simp only [hm, decide_true]
    rfl
  · simp only [hm, decide_false]

theorem finishStep_of_short {s : State} (markerOk : Bool) (h : s.dec.atTrailer)
    (hc : s.dec.count ≠ pixelCount s.dec.cfg) : finishStep s markerOk = .next (s.raiseDec .unexpectedEndOfStream) := by
  rw [finishStep, if_pos h, if_pos hc]

theorem finishStep_of_whole {s : State} (markerOk : Bool) (h : s.dec.atTrailer)
    (hc : s.dec.count = pixelCount s.dec.cfg) :
    finishStep s markerOk =
      if markerOk then .next { s with dec := { s.dec with phase := .done } }
      else .next (s.raiseDec .malformedEndMarker) := by
  rw [finishStep, if_pos h, if_neg (not_not.mpr hc)]

/-- Settles O18: a region whose bytes hold no chunk is cut. -/
theorem cutChunkRaises : Obligations.CutChunkRaises := by
  intro s rest r ht hr hd
  rw [step_of_decTurn ht]
  exact decStep_cut (s := { s with agenda := rest }) hr hd

/-- The trailer of a stream of known length is eight bytes, compared as a whole. -/
theorem Dec.trailer_take {d : Dec} (h : d.pos + Config.endLen = d.len) (hl : d.len = d.bytes.length) :
    d.trailer.take Config.endLen = d.bytes.drop (d.len - 8) := by
  apply List.take_of_length_le
  simp only [Dec.trailer, List.length_drop, Config.endLen] at h ⊢
  omega

/-- Settles O16: the finish step, with the comparison the decoder has made. -/
theorem finishStepChecks : Obligations.FinishStepChecks := by
  refine ⟨fun s rest ht hat hl => ?_, fun s hat hc => finishStep_of_whole true hat hc⟩
  have hstep := decStep_atTrailer (s := { s with agenda := rest }) hat
  rw [Dec.trailer_take hat.2 hl] at hstep
  rw [step_of_decTurn ht, hstep]
  dsimp only
  split_ifs with hc hm
  · exact finishStep_of_short _ hat hc
  · rw [decide_eq_false (show ¬_ = endMarkerBytes from hm)]
    exact finishStep_of_whole false hat (not_not.mp hc)
  · rw [decide_eq_true (show _ = endMarkerBytes from not_not.mp hm)]
    exact finishStep_of_whole true hat (not_not.mp hc)

/-- Settles O14: the checks of R92 and the length check pass. -/
theorem headerStartsOperation : Obligations.HeaderStartsOperation := by
  intro cfg s hb hw hh hch hcs hl
  have hc : configError cfg = none := (configError_eq_none_iff cfg).mpr ⟨hw, hh, hch, hcs⟩
  have hlen : ¬s.dec.len < Config.headerLen + Config.endLen := Nat.not_lt.mpr hl
  show execHeader cfg s = _
  simp only [execHeader, if_neg hb, hc, if_neg hlen]
  rfl

/-- The decoder after its start step (R161): the stream latched, and the error or the start of the operation. -/
def Dec.started (d : Dec) (bytes : List Byte) : Dec :=
  let latched : Dec := { d with err := none, bytes := bytes, len := bytes.length }
  match hdrDec bytes with
  | .error k => latched.raise k
  | .ok cfg => if bytes.length < 22 then latched.raise .unexpectedEndOfStream else latched.begin cfg

/-- The start step in one equation. -/
theorem decStart_eq {s : State} (bytes : List Byte) (h : s.dec.phase ≠ .busy) :
    decStart bytes s = .next { s with dec := s.dec.started bytes } := by
  unfold decStart Dec.started
  rcases decode_start_cases bytes with ⟨r, h1, h2⟩ | ⟨cfg, rest, h1, h2⟩
  · simp only [h1, h2]
    rfl
  · simp only [h1, h2]
    show execHeader cfg (s.latchStream bytes) = _
    rw [execHeader, if_neg (show (s.latchStream bytes).dec.phase ≠ .busy from h)]
    cases configError cfg with
    | some k => rfl
    | none =>
      show (if bytes.length < 22 then _ else _) = _
      dsimp only
      split_ifs <;> rfl

theorem Dec.started_of_error {bytes : List Byte} {k : ErrKind} (d : Dec) (h : hdrDec bytes = .error k) :
    d.started bytes = Dec.raise { d with err := none, bytes := bytes, len := bytes.length } k := by
  simp only [Dec.started, h]

theorem Dec.started_of_short {bytes : List Byte} {cfg : ImageConfig} (d : Dec) (h : hdrDec bytes = .ok cfg)
    (hl : bytes.length < 22) :
    d.started bytes = Dec.raise { d with err := none, bytes := bytes, len := bytes.length } .unexpectedEndOfStream := by
  simp only [Dec.started, h, if_pos hl]

theorem Dec.started_of_ok {bytes : List Byte} {cfg : ImageConfig} (d : Dec) (h : hdrDec bytes = .ok cfg)
    (hl : ¬bytes.length < 22) :
    d.started bytes = Dec.begin { d with err := none, bytes := bytes, len := bytes.length } cfg := by
  simp only [Dec.started, h, if_neg hl]

/-- The accepted start command, in one equation. -/
theorem step_startDecode_eq {s : State} {bytes : List Byte} {rest : List Event}
    (h : s.agenda = .startDecode bytes :: rest) (hb : s.dec.phase ≠ .busy) :
    step s = .next { s with agenda := rest, dec := s.dec.started bytes } := by
  rw [step_startDecode h hb]
  exact decStart_eq bytes hb

/-- The start step latches the stream, whatever its header says (log 17). -/
theorem Dec.started_stream (d : Dec) (bytes : List Byte) :
    (d.started bytes).bytes = bytes ∧ (d.started bytes).len = bytes.length := by
  unfold Dec.started
  cases hdrDec bytes with
  | error k => exact ⟨rfl, rfl⟩
  | ok cfg =>
    dsimp only
    split_ifs <;> exact ⟨rfl, rfl⟩

/-- Settles O15: `Dec.started`, by the outcome of `HDR_DEC` and the length. -/
theorem startDecodeStep : Obligations.StartDecodeStep := by
  intro s bytes rest h hb
  obtain ⟨hbytes, hlen⟩ := s.dec.started_stream bytes
  refine ⟨_, step_startDecode_eq h hb, rfl, rfl, rfl, hbytes, hlen, ?_⟩
  cases hd : hdrDec bytes with
  | error k =>
    dsimp only
    rw [Dec.started_of_error _ hd]
    exact ⟨rfl, rfl⟩
  | ok cfg =>
    dsimp only
    split_ifs with hl
    · rw [Dec.started_of_short _ hd hl]
      exact ⟨rfl, rfl⟩
    · rw [Dec.started_of_ok _ hd hl]
      exact ⟨rfl, rfl, rfl, Cache.read_init, rfl, rfl, rfl, rfl, fun _ => rfl⟩

/-- Settles O20: fetch, decode, execute in the chunk region, at the trailer, and in the start step. -/
theorem stepRunsDecoded : Obligations.StepRunsDecoded := by
  refine ⟨fun s as i rest ht hr hd => ?_, fun s as i rest ht hat hd => ?_, fun s as bytes rest i h hb hd => ?_⟩
  · rw [step_of_decTurn ht]
    exact decStep_chunk (s := { s with agenda := as }) hr hd
  · obtain ⟨rfl, he⟩ := decodeTrailer_ok_iff.mp hd
    have hm : s.dec.trailer.take Config.endLen = endMarkerBytes := by
      rw [← he]
      rfl
    rw [step_of_decTurn ht, decStep_atTrailer (s := { s with agenda := as }) hat, hm, decide_eq_true rfl]
    rfl
  · rw [step_startDecode h hb, decStart, hd]
    rfl

end Sys2Proof.Machine
end

section
/-! PROOFS of the frames (43_decoder.md, 41_pixel_arith_cache.md section 4) and of the accesses (20_memory.md, 10_state.md
section 8). -/

namespace Sys2Proof.Machine

/-- The common update leaves every address outside the pixel at `count` (R43, R169). -/
theorem Dec.read_afterPixel_outside (d : Dec) (len : Nat) (p : Pixel) (c : Cache) {a : Nat}
    (hch : d.cfg.channels = 3 ∨ d.cfg.channels = 4)
    (ha : a < d.count * d.cfg.channels.toNat ∨ (d.count + 1) * d.cfg.channels.toNat ≤ a) :
    Memory.read (d.afterPixel len p c).outbuf a = Memory.read d.outbuf a := by
  refine Memory.read_writeBytes_outside _ _ _ _ ?_
  rwa [pixelBytes_length, ← toNat_channels hch, ← Nat.succ_mul]

/-- What a chunk of one pixel leaves unchanged, whatever it does to the cache. -/
theorem putPixel_frame {s t : State} {len : Nat} {p : Pixel} {c : Cache}
    (h : chunkStep len s (putPixel len s p c) = .next t) :
    t.hdr = s.hdr ∧ t.enc = s.enc ∧ t.agenda = s.agenda ∧
    ((∃ k, t.dec = s.dec.raise k) ∨
      (t.dec.phase = s.dec.phase ∧ t.dec.err = s.dec.err ∧ t.dec.cfg = s.dec.cfg ∧ t.dec.bytes = s.dec.bytes ∧
        t.dec.len = s.dec.len ∧ t.dec.run = s.dec.run ∧ t.dec.voids = s.dec.voids ∧
        (t.dec.cache = c ∧ t.dec.prev = p) ∧
        (∀ a, (a < s.dec.count * s.dec.cfg.channels.toNat ∨ (s.dec.count + 1) * s.dec.cfg.channels.toNat ≤ a) →
          Memory.read t.dec.outbuf a = Memory.read s.dec.outbuf a))) := by
  rcases (chunkStep_putPixel_next h).2 with ⟨k, rfl⟩ | ⟨_, ⟨_, hch⟩, _, rfl⟩
  · exact ⟨rfl, rfl, rfl, .inl ⟨k, rfl⟩⟩
  · exact ⟨rfl, rfl, rfl, .inr ⟨rfl, rfl, rfl, rfl, rfl, rfl, rfl, ⟨rfl, rfl⟩,
      fun _ ha => s.dec.read_afterPixel_outside len p c hch ha⟩⟩

/-- Settles O21: the common update with the cache written in the new pixel's slot. -/
theorem freshChunkFrame : Obligations.FreshChunkFrame := by
  intro i s t hi h
  have hput : ∃ len p, chunkStep len s (putPixel len s p (Cache.update s.dec.cache p)) = .next t := by
    rcases hi with ⟨r, g, b, rfl⟩ | ⟨r, g, b, a, rfl⟩ | ⟨dr, dg, db, rfl⟩ | ⟨dg, drg, dbg, rfl⟩ <;> exact ⟨_, _, h⟩
  obtain ⟨len, p, hput⟩ := hput
  obtain ⟨hh, he, ha, hk | ⟨h1, h2, h3, h4, h5, h6, h7, ⟨hcache, hprev⟩, hmem⟩⟩ := putPixel_frame hput
  · exact ⟨hh, he, ha, .inl hk⟩
  · refine ⟨hh, he, ha, .inr ⟨h1, h2, h3, h4, h5, h6, h7, fun slot hslot => ?_, hmem⟩⟩
    rw [hcache]
    exact Cache.read_update_other _ _ _ (hprev ▸ hslot)

/-- Settles O22: the common update with the cache as it was. -/
theorem indexFrame : Obligations.IndexFrame := by
  intro slot s t h
  obtain ⟨hh, he, ha, hk | ⟨h1, h2, h3, h4, h5, h6, h7, ⟨hcache, _⟩, hmem⟩⟩ := putPixel_frame h
  · exact ⟨hh, he, ha, .inl hk⟩
  · exact ⟨hh, he, ha, .inr ⟨h1, h2, h3, h4, h5, h6, h7, hcache, hmem⟩⟩

/-- Settles O23: a run writes its own pixels; with no pixel it writes nothing, whatever `CHANNELS` is. -/
theorem rleFrame : Obligations.RleFrame := by
  intro run s t h
  rcases (execRle_next h).2 with ⟨k, rfl⟩ | ⟨_, _, _, hch, rfl⟩
  · exact ⟨rfl, rfl, rfl, .inl ⟨k, rfl⟩⟩
  · refine ⟨rfl, rfl, rfl, .inr ⟨rfl, rfl, rfl, rfl, rfl, rfl, rfl, rfl, fun a ha => ?_⟩⟩
    rcases hch with rfl | hch
    · rfl
    · exact s.dec.read_afterRun_outside hch ha

/-- Settles O24: the answers of the two records, one by one. -/
theorem recordFrame : Obligations.RecordFrame := by
  constructor
  · intro cfg s t h
    rcases (execHeader_next h).2 with ⟨k, _, rfl⟩ | ⟨_, _, rfl⟩ | ⟨_, _, rfl⟩
    · exact ⟨rfl, rfl, rfl, rfl, rfl, .inl ⟨k, rfl⟩⟩
    · exact ⟨rfl, rfl, rfl, rfl, rfl, .inl ⟨_, rfl⟩⟩
    · exact ⟨rfl, rfl, rfl, rfl, rfl, .inr ⟨rfl, rfl⟩⟩
  · intro s t h
    rcases (finishStep_next h).2 with ⟨_, rfl⟩ | ⟨_, _, rfl⟩ | ⟨_, _, rfl⟩
    · exact ⟨rfl, rfl, rfl, .inl ⟨_, rfl⟩⟩
    · exact ⟨rfl, rfl, rfl, .inr rfl⟩
    · exact ⟨rfl, rfl, rfl, .inl ⟨_, rfl⟩⟩

/-- The bytes of a pixel are the first of its four components. -/
theorem pixelBytes_eq_take {c : Byte} (h : c = 3 ∨ c = 4) (p : Pixel) :
    pixelBytes c p = [p.r, p.g, p.b, p.a].take c.toNat := by
  rcases h with rfl | rfl <;> rfl

/-- Settles O45: a pixel is bytes written from `i * C`. -/
theorem pixWriteWritesPixel : Obligations.PixWriteWritesPixel := by
  intro d i p hi hch
  refine ⟨_, Dec.pixWrite_eq p ⟨hi, hch⟩, fun a => ?_⟩
  rw [Memory.read_writeBytes, pixelBytes_length, ← toNat_channels hch, Nat.succ_mul, pixelBytes_eq_take hch]
  split_ifs with ha
  · exact List.getElem?_take_of_lt (by omega)
  · rfl

/-- The view that each phase allows (R33). -/
theorem viewOf_by_phase {α : Type} (phase : Phase) (err : Option ErrKind) (result : α) :
    (phase = .done → viewOf phase err result = .done result) ∧
    (∀ k, phase = .error → err = some k → viewOf phase err result = .error (errKindCode k)) ∧
    (phase = .busy → viewOf phase err result = .busy) ∧ (phase = .idle → viewOf phase err result = .idle) := by
  refine ⟨?_, fun k => ?_, ?_, ?_⟩
  · rintro rfl
    rfl
  · rintro rfl rfl
    rfl
  · rintro rfl
    rfl
  · rintro rfl
    rfl

/-- Settles O46: the three units show what their phase allows. -/
theorem hostReadsByPhase : Obligations.HostReadsByPhase := by
  refine ⟨fun h => viewOf_by_phase h.phase h.err h.result, fun e => viewOf_by_phase e.phase e.err e.out, fun d => ?_⟩
  obtain ⟨hdone, herr, hbusy, hidle⟩ := viewOf_by_phase d.phase d.err d.image
  exact ⟨fun h => ⟨hdone h, fun _ => if_pos h⟩, herr, hbusy, hidle, fun h _ => if_neg h⟩

end Sys2Proof.Machine
end

section
/-! PROOFS: the step unit by unit. What a step can make of each unit (`DecMove`, `EncMove`, `HdrMove`), and what follows for
errors, phases, commands and resets (10_state.md section 8, 60_exceptions.md sections 2 to 4, 70_reset_and_hazards.md). -/

namespace Sys2Proof.Machine

/-- The pixel that a chunk of one pixel stands for (R163 to R168). -/
def chunkPixel (i : Instr) (cache : Cache) (prev : Pixel) : Pixel :=
  match i with
  | .rgb r g b => ⟨r, g, b, prev.a⟩
  | .rgba r g b a => ⟨r, g, b, a⟩
  | .index slot => Cache.read cache slot
  | .diff dr dg db => applyDiff prev dr dg db
  | .luma dg drg dbg => applyLuma prev dg drg dbg
  | .rle _ => prev
  | .header _ => prev
  | .endMarker => prev

/-- The cache after a chunk of one pixel: only `INDEX` leaves it alone (R118, R163). -/
def chunkCache (i : Instr) (cache : Cache) (prev : Pixel) : Cache :=
  match i with
  | .index _ => cache
  | _ => Cache.update cache (chunkPixel i cache prev)

/-- The decoder after a chunk of one pixel. -/
def Dec.afterChunk (d : Dec) (i : Instr) : Dec :=
  d.afterPixel (lengthOf i) (chunkPixel i d.cache d.prev) (chunkCache i d.cache d.prev)

/-- Every chunk that writes `prev` is a chunk step with the common update (R169). -/
theorem exec_writer_eq {i : Instr} (h : writesPrev i = true) (s : State) :
    exec i s = chunkStep (lengthOf i) s
      (putPixel (lengthOf i) s (chunkPixel i s.dec.cache s.dec.prev) (chunkCache i s.dec.cache s.dec.prev)) := by
  cases i with
  | rgb r g b => rfl
  | rgba r g b a => rfl
  | index slot => rfl
  | diff dr dg db => rfl
  | luma dg drg dbg => rfl
  | rle run => cases h
  | header cfg => cases h
  | endMarker => cases h

/-- A chunk writes `prev` or is a run. -/
theorem writesPrev_or_rle {i : Instr} (h : frameOf i = .chunk) : writesPrev i = true ∨ ∃ run, i = .rle run := by
  cases i with
  | rgb r g b => exact .inl rfl
  | rgba r g b a => exact .inl rfl
  | index slot => exact .inl rfl
  | diff dr dg db => exact .inl rfl
  | luma dg drg dbg => exact .inl rfl
  | rle run => exact .inr ⟨run, rfl⟩
  | header cfg => cases h
  | endMarker => cases h

/-- What a step can make of the decoder. -/
inductive DecMove (s : State) : Dec → Prop where
  | stays : DecMove s s.dec
  | starts {bytes : List Byte} {as : List Event} : s.agenda = .startDecode bytes :: as → s.dec.phase ≠ .busy →
      DecMove s (s.dec.started bytes)
  | resets {as : List Event} : s.agenda = .reset .dec :: as → DecMove s { Dec.reset with voids := s.dec.voids }
  | raises {as : List Event} (k : ErrKind) : s.decTurn as → s.dec.phase = .busy → DecMove s (s.dec.raise k)
  | writes {as : List Event} {i : Instr} {rest : List Byte} : s.decTurn as → s.dec.inRegion →
      decode .chunk s.dec.region = .ok (i, rest) → writesPrev i = true → pixelExists s.dec.cfg s.dec.count →
      lengthOf i ≤ s.dec.remaining → DecMove s (s.dec.afterChunk i)
  | repeats {as : List Event} {run : Nat} {rest : List Byte} : s.decTurn as → s.dec.inRegion →
      decode .chunk s.dec.region = .ok (.rle run, rest) → s.dec.count + run ≤ pixelCount s.dec.cfg →
      1 ≤ s.dec.remaining → DecMove s (s.dec.afterRun run)
  | ends {as : List Event} : s.decTurn as → s.dec.atTrailer → s.dec.count = pixelCount s.dec.cfg →
      DecMove s { s.dec with phase := .done }

/-- What a step can make of the encoder. -/
inductive EncMove (s : State) : Enc → Prop where
  | stays : EncMove s s.enc
  | starts {cfg : ImageConfig} {pixels : List Byte} {as : List Event} : s.agenda = .startEncode cfg pixels :: as →
      s.enc.phase ≠ .busy → EncMove s (s.enc.start cfg pixels)
  | resets {as : List Event} : s.agenda = .reset .enc :: as → EncMove s { Enc.reset with voids := s.enc.voids }
  | takes {as : List Event} {p : Pixel} : s.encTurn as → s.enc.phase = .busy → s.enc.count < pixelCount s.enc.cfg →
      s.enc.pixRead s.enc.count = some p → EncMove s (s.enc.takePixel p)
  | ends {as : List Event} : s.encTurn as → s.enc.phase = .busy → s.enc.count = pixelCount s.enc.cfg →
      EncMove s s.enc.finish

/-- What a step can make of `HDR`. -/
inductive HdrMove (s : State) : Hdr → Prop where
  | stays : HdrMove s s.hdr
  | encodes {cfg : ImageConfig} {as : List Event} : s.agenda = .hdrEnc cfg :: as → HdrMove s (s.hdr.encodeHeader cfg)
  | decodes {bytes : List Byte} {as : List Event} : s.agenda = .hdrDec bytes :: as →
      HdrMove s (s.hdr.decodeHeader bytes)
  | resets {as : List Event} : s.agenda = .reset .hdr :: as → HdrMove s { Hdr.reset with voids := s.hdr.voids }

/-- What the decoder's turn makes of the decoder. -/
theorem decMove_of_decTurn {s t : State} {as : List Event} (ht : s.decTurn as)
    (h : decStep { s with agenda := as } = .next t) : DecMove s t.dec := by
  rcases decStep_next h with ⟨_, rfl⟩ | ⟨hr, i, rest, hf, hd, he⟩ | ⟨hr, _, rfl⟩ | ⟨hat, m, hm⟩
  · exact .stays
  · rcases writesPrev_or_rle hf with hw | ⟨run, rfl⟩
    · rw [exec_writer_eq hw] at he
      rcases (chunkStep_putPixel_next he).2 with ⟨k, rfl⟩ | ⟨_, hx, hl, rfl⟩
      · exact .raises k ht hr.1
      · exact .writes ht hr hd hw hx hl
    · rcases (execRle_next he).2 with ⟨k, rfl⟩ | ⟨_, hl, hn, _, rfl⟩
      · exact .raises k ht hr.1
      · exact .repeats ht hr hd hn hl
  · exact .raises _ ht hr.1
  · rcases (finishStep_next hm).2 with ⟨_, rfl⟩ | ⟨hc, _, rfl⟩ | ⟨_, _, rfl⟩
    · exact .raises _ ht hat.1
    · exact .ends ht hat hc
    · exact .raises _ ht hat.1

/-- An encoder's step touches the encoder alone. -/
theorem encStep_frame {s t : State} (h : encStep s = .next t) : t.hdr = s.hdr ∧ t.dec = s.dec := by
  rcases encStep_next h with ⟨_, rfl⟩ | ⟨_, _, _, _, rfl⟩ | ⟨_, _, rfl⟩ <;> exact ⟨rfl, rfl⟩

/-- What the encoder's turn makes of the encoder. -/
theorem encMove_of_encTurn {s t : State} {as : List Event} (ht : s.encTurn as)
    (h : encStep { s with agenda := as } = .next t) : EncMove s t.enc := by
  rcases encStep_next h with ⟨_, rfl⟩ | ⟨hb, hc, p, hp, rfl⟩ | ⟨hb, hc, rfl⟩
  · exact .stays
  · exact .takes ht hb hc hp
  · exact .ends ht hb hc

/-- A step is a move of one unit, and the other two stay. -/
theorem step_moves {s t : State} (h : step s = .next t) :
    (t.hdr = s.hdr ∧ t.enc = s.enc ∧ DecMove s t.dec) ∨ (t.hdr = s.hdr ∧ t.dec = s.dec ∧ EncMove s t.enc) ∨
      (t.enc = s.enc ∧ t.dec = s.dec ∧ HdrMove s t.hdr) := by
  rcases step_next h with ⟨as, ht, hs⟩ | ⟨as, ht, hs⟩ | ⟨e, as, ha, hs, hd, he⟩
  · obtain ⟨hh, he, _⟩ := decStep_frame hs
    exact .inl ⟨hh, he, decMove_of_decTurn ht hs⟩
  · obtain ⟨hh, hd⟩ := encStep_frame hs
    exact .inr (.inl ⟨hh, hd, encMove_of_encTurn ht hs⟩)
  · cases e with
    | startEncode cfg pixels =>
      by_cases hb : s.enc.phase = .busy
      · obtain rfl := Host.Outcome.next.inj ((if_pos hb).symm.trans hs)
        exact .inr (.inl ⟨rfl, rfl, .stays⟩)
      · obtain rfl := Host.Outcome.next.inj ((if_neg hb).symm.trans hs)
        exact .inr (.inl ⟨rfl, rfl, .starts ha hb⟩)
    | startDecode bytes =>
      by_cases hb : s.dec.phase = .busy
      · obtain rfl := Host.Outcome.next.inj ((if_pos hb).symm.trans hs)
        exact .inl ⟨rfl, rfl, .stays⟩
      · obtain rfl := Host.Outcome.next.inj ((step_startDecode_eq ha hb).symm.trans h)
        exact .inl ⟨rfl, rfl, .starts ha hb⟩
    | hdrEnc cfg =>
      obtain rfl := Host.Outcome.next.inj hs
      exact .inr (.inr ⟨rfl, rfl, .encodes ha⟩)
    | hdrDec bytes =>
      obtain rfl := Host.Outcome.next.inj hs
      exact .inr (.inr ⟨rfl, rfl, .decodes ha⟩)
    | reset u =>
      obtain rfl := Host.Outcome.next.inj hs
      cases u with
      | hdr => exact .inr (.inr ⟨rfl, rfl, .resets ha⟩)
      | enc => exact .inr (.inl ⟨rfl, rfl, .resets ha⟩)
      | dec => exact .inl ⟨rfl, rfl, .resets ha⟩
    | run u =>
      cases u with
      | hdr =>
        obtain rfl := Host.Outcome.next.inj hs
        exact .inl ⟨rfl, rfl, .stays⟩
      | enc => exact absurd rfl he
      | dec => exact absurd rfl hd

theorem step_decMove {s t : State} (h : step s = .next t) : DecMove s t.dec := by
  rcases step_moves h with ⟨_, _, hm⟩ | ⟨_, hd, _⟩ | ⟨_, hd, _⟩
  · exact hm
  · exact hd ▸ .stays
  · exact hd ▸ .stays

theorem step_encMove {s t : State} (h : step s = .next t) : EncMove s t.enc := by
  rcases step_moves h with ⟨_, he, _⟩ | ⟨_, _, hm⟩ | ⟨he, _, _⟩
  · exact he ▸ .stays
  · exact hm
  · exact he ▸ .stays

theorem step_hdrMove {s t : State} (h : step s = .next t) : HdrMove s t.hdr := by
  rcases step_moves h with ⟨hh, _, _⟩ | ⟨hh, _, _⟩ | ⟨_, _, hm⟩
  · exact hh ▸ .stays
  · exact hh ▸ .stays
  · exact hm

/-- The decoder's start step has two outcomes: an error on the latched stream, or the start values. -/
theorem Dec.started_cases (d : Dec) (bytes : List Byte) :
    (∃ k, d.started bytes = Dec.raise { d with err := none, bytes := bytes, len := bytes.length } k) ∨
      ∃ cfg, configError cfg = none ∧ 22 ≤ bytes.length ∧
        d.started bytes = Dec.begin { d with err := none, bytes := bytes, len := bytes.length } cfg := by
  cases hd : hdrDec bytes with
  | error k => exact .inl ⟨k, d.started_of_error hd⟩
  | ok cfg =>
    by_cases hl : bytes.length < 22
    · exact .inl ⟨_, d.started_of_short hd hl⟩
    · exact .inr ⟨cfg, (hdrDec_ok_iff.mp hd).1, Nat.not_lt.mp hl, d.started_of_ok hd hl⟩

/-! Errors keep the working registers (R192) -/

theorem DecMove.error_keeps {s : State} {d : Dec} (h : DecMove s d) (he : d.phase = .error) :
    (d ≠ s.dec → ∃ k, d.err = some k) ∧ d.cache = s.dec.cache ∧ d.prev = s.dec.prev ∧ d.run = s.dec.run ∧
      d.count = s.dec.count ∧ d.pos = s.dec.pos := by
  cases h with
  | stays => exact ⟨fun hne => absurd rfl hne, rfl, rfl, rfl, rfl, rfl⟩
  | @starts bytes _ _ _ =>
    rcases s.dec.started_cases bytes with ⟨k, hk⟩ | ⟨cfg, _, _, hk⟩
    · rw [hk]
      exact ⟨fun _ => ⟨k, rfl⟩, rfl, rfl, rfl, rfl, rfl⟩
    · rw [hk] at he
      cases he
  | resets _ => cases he
  | raises k _ _ => exact ⟨fun _ => ⟨k, rfl⟩, rfl, rfl, rfl, rfl, rfl⟩
  | writes _ hr => cases hr.1.symm.trans he
  | repeats _ hr => cases hr.1.symm.trans he
  | ends => cases he

theorem Enc.takePixel_phase (e : Enc) (p : Pixel) : (e.takePixel p).phase = e.phase := by
  obtain ⟨_, _, _, _, h⟩ := e.takePixel_fields p
  rw [h]

theorem EncMove.error_keeps {s : State} {e : Enc} (h : EncMove s e) (he : e.phase = .error) :
    (e ≠ s.enc → ∃ k, e.err = some k) ∧ e.cache = s.enc.cache ∧ e.prev = s.enc.prev ∧ e.run = s.enc.run ∧
      e.count = s.enc.count := by
  cases h with
  | stays => exact ⟨fun hne => absurd rfl hne, rfl, rfl, rfl, rfl⟩
  | @starts cfg pixels _ _ _ =>
    rcases s.enc.start_cases cfg pixels with ⟨k, hk⟩ | ⟨_, _, hk⟩
    · rw [hk]
      exact ⟨fun _ => ⟨k, rfl⟩, rfl, rfl, rfl, rfl⟩
    · rw [hk] at he
      cases he
  | resets _ => cases he
  | takes _ hb =>
    rw [Enc.takePixel_phase, hb] at he
    cases he
  | ends => cases he

/-- Settles O25, move by move. -/
theorem errorKeepsRegisters : Obligations.ErrorKeepsRegisters :=
  ⟨fun _ _ h he => (step_decMove h).error_keeps he, fun _ _ h he => (step_encMove h).error_keeps he⟩

/-! Units that are not `BUSY` wait -/

theorem DecMove.of_waiting {s : State} {d : Dec} (h : DecMove s d) (hb : s.dec.phase ≠ .busy) (hne : d ≠ s.dec) :
    ∃ rest, (∃ bytes, s.agenda = .startDecode bytes :: rest) ∨ s.agenda = .reset .dec :: rest := by
  cases h with
  | stays => exact absurd rfl hne
  | starts ha => exact ⟨_, .inl ⟨_, ha⟩⟩
  | resets ha => exact ⟨_, .inr ha⟩
  | raises _ _ hbusy => exact absurd hbusy hb
  | writes _ hr => exact absurd hr.1 hb
  | repeats _ hr => exact absurd hr.1 hb
  | ends _ hat => exact absurd hat.1 hb

theorem EncMove.of_waiting {s : State} {e : Enc} (h : EncMove s e) (hb : s.enc.phase ≠ .busy) (hne : e ≠ s.enc) :
    ∃ rest, (∃ cfg pixels, s.agenda = .startEncode cfg pixels :: rest) ∨ s.agenda = .reset .enc :: rest := by
  cases h with
  | stays => exact absurd rfl hne
  | starts ha => exact ⟨_, .inl ⟨_, _, ha⟩⟩
  | resets ha => exact ⟨_, .inr ha⟩
  | takes _ hbusy => exact absurd hbusy hb
  | ends _ hbusy => exact absurd hbusy hb

theorem HdrMove.of_change {s : State} {h' : Hdr} (h : HdrMove s h') (hne : h' ≠ s.hdr) :
    ∃ rest, (∃ cfg, s.agenda = .hdrEnc cfg :: rest) ∨ (∃ bytes, s.agenda = .hdrDec bytes :: rest) ∨
      s.agenda = .reset .hdr :: rest := by
  cases h with
  | stays => exact absurd rfl hne
  | encodes ha => exact ⟨_, .inl ⟨_, ha⟩⟩
  | decodes ha => exact ⟨_, .inr (.inl ⟨_, ha⟩)⟩
  | resets ha => exact ⟨_, .inr (.inr ha)⟩

/-- Settles O26: every other move is a turn of a busy unit. -/
theorem endedUnitsWait : Obligations.EndedUnitsWait :=
  ⟨fun _ _ h hb hne => (step_decMove h).of_waiting hb hne, fun _ _ h hb hne => (step_encMove h).of_waiting hb hne,
    fun _ _ h hne => (step_hdrMove h).of_change hne⟩

/-! How `PHASE` changes -/

theorem DecMove.phase_change {s : State} {d : Dec} (h : DecMove s d) (hne : d.phase ≠ s.dec.phase) :
    (∃ bytes rest, s.agenda = .startDecode bytes :: rest ∧ s.dec.phase ≠ .busy ∧ (d.phase = .busy ∨ d.phase = .error)) ∨
    (∃ rest, s.agenda = .reset .dec :: rest ∧ d.phase = .idle) ∨
    (∃ rest, s.decTurn rest ∧ s.dec.phase = .busy ∧ (d.phase = .done ∨ d.phase = .error)) := by
  cases h with
  | stays => exact absurd rfl hne
  | @starts bytes _ ha hb =>
    refine .inl ⟨bytes, _, ha, hb, ?_⟩
    rcases s.dec.started_cases bytes with ⟨k, hk⟩ | ⟨cfg, _, _, hk⟩
    · exact .inr (hk ▸ rfl)
    · exact .inl (hk ▸ rfl)
  | resets ha => exact .inr (.inl ⟨_, ha, rfl⟩)
  | raises _ ht hb => exact .inr (.inr ⟨_, ht, hb, .inr rfl⟩)
  | writes => exact absurd rfl hne
  | repeats => exact absurd rfl hne
  | ends ht hat => exact .inr (.inr ⟨_, ht, hat.1, .inl rfl⟩)

theorem EncMove.phase_change {s : State} {e : Enc} (h : EncMove s e) (hne : e.phase ≠ s.enc.phase) :
    (∃ cfg pixels rest, s.agenda = .startEncode cfg pixels :: rest ∧ s.enc.phase ≠ .busy ∧
      (e.phase = .busy ∨ e.phase = .error)) ∨
    (∃ rest, s.agenda = .reset .enc :: rest ∧ e.phase = .idle) ∨
    (∃ rest, s.encTurn rest ∧ s.enc.phase = .busy ∧ e.phase = .done) := by
  cases h with
  | stays => exact absurd rfl hne
  | @starts cfg pixels _ ha hb =>
    refine .inl ⟨cfg, pixels, _, ha, hb, ?_⟩
    rcases s.enc.start_cases cfg pixels with ⟨k, hk⟩ | ⟨_, _, hk⟩
    · exact .inr (hk ▸ rfl)
    · exact .inl (hk ▸ rfl)
  | resets ha => exact .inr (.inl ⟨_, ha, rfl⟩)
  | takes => exact absurd (Enc.takePixel_phase _ _) hne
  | ends ht hb => exact .inr (.inr ⟨_, ht, hb, rfl⟩)

/-- Settles O27, move by move. -/
theorem phaseTransitions : Obligations.PhaseTransitions :=
  ⟨fun _ _ h hne => (step_decMove h).phase_change hne, fun _ _ h hne => (step_encMove h).phase_change hne⟩

/-! Commands, resets and the waiting block -/

/-- Settles O28: the start command is tested against `BUSY` first. -/
theorem startWhileBusyIgnored : Obligations.StartWhileBusyIgnored :=
  ⟨fun _ _ _ ha hb => (step_event ha).trans (if_pos hb), fun _ _ _ _ ha hb => (step_event ha).trans (if_pos hb)⟩

/-- Settles O29: the reset of a unit is its record after reset. -/
theorem resetRestoresUnit : Obligations.ResetRestoresUnit :=
  ⟨fun _ _ ha => ⟨_, step_event ha, rfl, rfl, rfl, rfl, rfl, rfl, Cache.read_init, rfl, rfl, rfl, rfl⟩,
    fun _ _ ha => ⟨_, step_event ha, rfl, rfl, rfl, rfl, rfl, rfl, rfl, rfl, Cache.read_init, rfl, rfl, rfl, fun _ => rfl⟩,
    fun _ _ ha => ⟨_, step_event ha, rfl, rfl, rfl, rfl, rfl, rfl⟩⟩

/-- Settles O30: the turn falls to the encoder, which waits. -/
theorem idleBlockWaits : Obligations.IdleBlockWaits := by
  intro s ha he hd
  rw [step_turn ha, defaultUnit, if_neg hd]
  exact encStep_waits he

theorem Enc.start_of_error {cfg : ImageConfig} {k : ErrKind} (e : Enc) (pixels : List Byte)
    (h : hdrEnc cfg = .error k) : e.start cfg pixels = Enc.raise { e with err := none } k := by
  simp only [Enc.start, h]

theorem Enc.start_of_length {cfg : ImageConfig} {hdr pixels : List Byte} (e : Enc) (h : hdrEnc cfg = .ok hdr)
    (hl : pixels.length ≠ bufferLength cfg) :
    e.start cfg pixels = Enc.raise { e with err := none } .pixelCountMismatch := by
  simp only [Enc.start, h, if_pos hl]

theorem Enc.start_of_ok {cfg : ImageConfig} {hdr pixels : List Byte} (e : Enc) (h : hdrEnc cfg = .ok hdr)
    (hl : ¬pixels.length ≠ bufferLength cfg) :
    e.start cfg pixels = { e with
      err := none, cfg := cfg, pixels := pixels, cache := Cache.init, prev := Config.prevInit, run := 0, count := 0,
      out := hdr, phase := .busy } := by
  simp only [Enc.start, h, if_neg hl]

/-- Settles O42: the start step, by the outcome of `HDR_ENC` and the length. -/
theorem startEncodeStep : Obligations.StartEncodeStep := by
  intro s cfg pixels rest ha hb
  refine ⟨_, step_startEncode ha hb, rfl, rfl, rfl, ?_⟩
  cases hc : hdrEnc cfg with
  | error k =>
    dsimp only
    rw [Enc.start_of_error _ _ hc]
    exact ⟨rfl, rfl⟩
  | ok hdr =>
    dsimp only
    split_ifs with hl
    · rw [Enc.start_of_length _ hc hl]
      exact ⟨rfl, rfl⟩
    · rw [Enc.start_of_ok _ hc hl]
      exact ⟨rfl, rfl, rfl, rfl, Cache.read_init, rfl, rfl, rfl, rfl⟩

/-- What a start makes of the decoder does not depend on what the decoder held. -/
theorem Dec.started_determined (d1 d2 : Dec) (bytes : List Byte) :
    (d1.started bytes).phase = (d2.started bytes).phase ∧ (d1.started bytes).err = (d2.started bytes).err ∧
      ((d1.started bytes).phase = .busy →
        { d1.started bytes with voids := 0 } = { d2.started bytes with voids := 0 }) := by
  cases hd : hdrDec bytes with
  | error k =>
    rw [d1.started_of_error hd, d2.started_of_error hd]
    exact ⟨rfl, rfl, fun h => by cases h⟩
  | ok cfg =>
    by_cases hl : bytes.length < 22
    · rw [d1.started_of_short hd hl, d2.started_of_short hd hl]
      exact ⟨rfl, rfl, fun h => by cases h⟩
    · rw [d1.started_of_ok hd hl, d2.started_of_ok hd hl]
      exact ⟨rfl, rfl, fun _ => rfl⟩

/-- What a start makes of the encoder does not depend on what the encoder held. -/
theorem Enc.start_determined (e1 e2 : Enc) (cfg : ImageConfig) (pixels : List Byte) :
    (e1.start cfg pixels).phase = (e2.start cfg pixels).phase ∧ (e1.start cfg pixels).err = (e2.start cfg pixels).err ∧
      ((e1.start cfg pixels).phase = .busy →
        { e1.start cfg pixels with voids := 0 } = { e2.start cfg pixels with voids := 0 }) := by
  cases hc : hdrEnc cfg with
  | error k =>
    rw [e1.start_of_error _ hc, e2.start_of_error _ hc]
    exact ⟨rfl, rfl, fun h => by cases h⟩
  | ok hdr =>
    by_cases hl : pixels.length ≠ bufferLength cfg
    · rw [e1.start_of_length hc hl, e2.start_of_length hc hl]
      exact ⟨rfl, rfl, fun h => by cases h⟩
    · rw [e1.start_of_ok hc hl, e2.start_of_ok hc hl]
      exact ⟨rfl, rfl, fun _ => rfl⟩

/-- Settles O32: both steps are the start step, whose outcome is that of its inputs. -/
theorem noPersistence : Obligations.NoPersistence := by
  constructor
  · intro s1 s2 t1 t2 bytes r1 r2 h1 h2 hb1 hb2 hs1 hs2
    obtain rfl := Host.Outcome.next.inj ((step_startDecode_eq h1 hb1).symm.trans hs1)
    obtain rfl := Host.Outcome.next.inj ((step_startDecode_eq h2 hb2).symm.trans hs2)
    exact Dec.started_determined _ _ _
  · intro s1 s2 t1 t2 cfg pixels r1 r2 h1 h2 hb1 hb2 hs1 hs2
    obtain rfl := Host.Outcome.next.inj ((step_startEncode h1 hb1).symm.trans hs1)
    obtain rfl := Host.Outcome.next.inj ((step_startEncode h2 hb2).symm.trans hs2)
    exact Enc.start_determined _ _ _ _

end Sys2Proof.Machine
end

section
/-! PROOFS of 60_exceptions.md section 4 (isolation) and 70_reset_and_hazards.md section 2 (trailer protection). What the
decoder does depends on its own registers and on the bytes it reads: it commutes with replacing everything else. -/

namespace Sys2Proof.Machine

/-- The state with everything replaced but the decoder's registers: the other units, the agenda, the stream. -/
def State.graft (hdr : Hdr) (enc : Enc) (agenda : List Event) (bytes : List Byte) (s : State) : State :=
  { hdr := hdr, enc := enc, dec := { s.dec with bytes := bytes }, agenda := agenda }

/-- The outcome with its next state mapped. -/
def mapNext (f : State → State) : Host.Outcome State Fault Refusal → Host.Outcome State Fault Refusal
  | .next t => .next (f t)
  | .fault r => .fault r
  | .refused r => .refused r

section graft
variable (hdr : Hdr) (enc : Enc) (agenda : List Event) (bytes : List Byte)

theorem chunkStep_graft {len : Nat} {s : State} {e e' : Host.Outcome State Fault Refusal}
    (h : e' = mapNext (.graft hdr enc agenda bytes) e) :
    chunkStep len (s.graft hdr enc agenda bytes) e' = mapNext (.graft hdr enc agenda bytes) (chunkStep len s e) := by
  simp only [chunkStep, apply_ite (mapNext _), h]
  rfl

theorem Dec.pixWrite_withBytes (d : Dec) (i : Nat) (p : Pixel) :
    Dec.pixWrite { d with bytes := bytes } i p = (d.pixWrite i p).map fun d' => { d' with bytes := bytes } := by
  simp only [Dec.pixWrite, apply_ite (Option.map _)]
  rfl

theorem Dec.writeRun_withBytes (n : Nat) (d : Dec) :
    Dec.writeRun n { d with bytes := bytes } = (Dec.writeRun n d).map fun d' => { d' with bytes := bytes } := by
  induction n generalizing d with
  | zero => rfl
  | succ n ih =>
    simp only [Dec.writeRun, Dec.pixWrite_withBytes]
    cases d.pixWrite d.count d.prev with
    | none => rfl
    | some d' => exact ih { d' with count := d'.count + 1, run := BitVec.ofNat 6 n }

theorem putPixel_graft (len : Nat) (s : State) (p : Pixel) (c : Cache) :
    putPixel len (s.graft hdr enc agenda bytes) p c = mapNext (.graft hdr enc agenda bytes) (putPixel len s p c) := by
  simp only [putPixel, State.graft, Dec.pixWrite_withBytes]
  cases s.dec.pixWrite s.dec.count p <;> rfl

theorem execRle_graft (run : Nat) (s : State) :
    execRle run (s.graft hdr enc agenda bytes) = mapNext (.graft hdr enc agenda bytes) (execRle run s) := by
  refine chunkStep_graft hdr enc agenda bytes ?_
  have hw := Dec.writeRun_withBytes bytes run { s.dec with run := BitVec.ofNat 6 run }
  simp only [apply_ite (mapNext _), State.graft, hw]
  cases Dec.writeRun run { s.dec with run := BitVec.ofNat 6 run } <;> rfl

theorem exec_chunk_graft {i : Instr} (hf : frameOf i = .chunk) (s : State) :
    exec i (s.graft hdr enc agenda bytes) = mapNext (.graft hdr enc agenda bytes) (exec i s) := by
  rcases writesPrev_or_rle hf with hw | ⟨run, rfl⟩
  · rw [exec_writer_eq hw, exec_writer_eq hw]
    exact chunkStep_graft hdr enc agenda bytes (putPixel_graft hdr enc agenda bytes _ _ _ _)
  · exact execRle_graft hdr enc agenda bytes run s

theorem finishStep_graft (markerOk : Bool) (s : State) :
    finishStep (s.graft hdr enc agenda bytes) markerOk =
      mapNext (.graft hdr enc agenda bytes) (finishStep s markerOk) := by
  simp only [finishStep, apply_ite (mapNext _)]
  rfl

theorem decStep_past {s : State} (hb : s.dec.phase = .busy) (hr : ¬s.dec.inRegion) (hat : ¬s.dec.atTrailer) :
    decStep s = .fault .cursorPastRegion := by
  have h1 : ¬s.dec.pos + Config.endLen < s.dec.len := fun h => hr ⟨hb, h⟩
  have h2 : ¬s.dec.pos + Config.endLen = s.dec.len := fun h => hat ⟨hb, h⟩
  simp only [decStep, hb, if_neg h1, if_neg h2]

/-- The decoder's step depends on no byte but those of the region and, at its end, the trailer. -/
theorem decStep_graft (s : State) (hregion : (s.graft hdr enc agenda bytes).dec.region = s.dec.region)
    (htrailer : s.dec.atTrailer → (s.graft hdr enc agenda bytes).dec.trailer = s.dec.trailer) :
    decStep (s.graft hdr enc agenda bytes) = mapNext (.graft hdr enc agenda bytes) (decStep s) := by
  by_cases hb : s.dec.phase = .busy
  · by_cases hr : s.dec.inRegion
    · cases hd : decode .chunk s.dec.region with
      | ok x =>
        obtain ⟨i, rest⟩ := x
        rw [decStep_chunk hr hd, decStep_chunk (by exact hr) (hregion ▸ hd)]
        exact exec_chunk_graft hdr enc agenda bytes (frameOf_of_decodeChunk hd) s
      | error r =>
        rw [decStep_cut hr hd, decStep_cut (by exact hr) (hregion ▸ hd)]
        rfl
    · by_cases hat : s.dec.atTrailer
      · rw [decStep_atTrailer hat, decStep_atTrailer (by exact hat), htrailer hat]
        exact finishStep_graft hdr enc agenda bytes _ s
      · rw [decStep_past hb hr hat, decStep_past (by exact hb) (by exact hr) (by exact hat)]
        rfl
  · rw [decStep_waits hb, decStep_waits (by exact hb)]
    rfl

end graft

/-- Settles O34: replacing the stream by one that agrees with it up to the trailer leaves the region as it was. -/
theorem trailerNotReadByChunks : Obligations.TrailerNotReadByChunks := by
  intro s t other rest ht hr hother h
  have hregion : (s.graft s.hdr s.enc rest other).dec.region = s.dec.region := by
    show (other.take (s.dec.len - 8)).drop s.dec.pos = (s.dec.bytes.take (s.dec.len - 8)).drop s.dec.pos
    rw [hother]
  have hnot : ¬s.dec.atTrailer := fun hat => Nat.ne_of_lt hr.2 hat.2
  rw [step_of_decTurn ht] at h
  rw [step_of_decTurn (s := { s with dec := { s.dec with bytes := other } }) ht]
  have hg := decStep_graft s.hdr s.enc rest other { s with agenda := rest } hregion fun hat => absurd hat hnot
  rw [h] at hg
  obtain ⟨hh, he, ha⟩ := decStep_frame h
  obtain ⟨thdr, tenc, tdec, tagenda⟩ := t
  cases hh
  cases he
  cases ha
  exact hg

/-- The decoder's step leaves the stream. -/
theorem decStep_bytes {s t : State} (h : decStep s = .next t) : t.dec.bytes = s.dec.bytes := by
  have hg := decStep_graft s.hdr s.enc s.agenda s.dec.bytes s rfl fun _ => rfl
  rw [h] at hg
  exact congrArg (·.dec.bytes) (Host.Outcome.next.inj (h.symm.trans hg))

/-- What a turn makes of a decoder that stands alone. -/
def Dec.turned (d : Dec) : Dec :=
  match decStep { State.reset with dec := d } with
  | .next t => t.dec
  | .fault _ => d
  | .refused _ => d

theorem Dec.turned_eq {s t : State} (h : decStep s = .next t) : t.dec = s.dec.turned := by
  have hg := decStep_graft State.reset.hdr State.reset.enc [] s.dec.bytes s rfl fun _ => rfl
  rw [h] at hg
  show t.dec = match decStep (s.graft State.reset.hdr State.reset.enc [] s.dec.bytes) with
    | .next t => t.dec | .fault _ => s.dec | .refused _ => s.dec
  rw [hg, ← decStep_bytes h]
  rfl

/-- A busy encoder that reads its pixel performs the pixel step. -/
theorem encStep_pixel {s : State} {p : Pixel} (hb : s.enc.phase = .busy) (hp : s.enc.pixRead s.enc.count = some p) :
    encStep s = .next { s with enc := s.enc.takePixel p } := by
  simp only [encStep, hb, hp, if_pos (Enc.count_lt_of_pixRead hp).1]

/-- What a turn makes of an encoder that stands alone. -/
def Enc.turned (e : Enc) : Enc :=
  match encStep { State.reset with enc := e } with
  | .next t => t.enc
  | .fault _ => e
  | .refused _ => e

theorem Enc.turned_eq {s t : State} (h : encStep s = .next t) : t.enc = s.enc.turned := by
  unfold Enc.turned
  rcases encStep_next h with ⟨hb, rfl⟩ | ⟨hb, hc, p, hp, rfl⟩ | ⟨hb, hc, rfl⟩
  · rw [encStep_waits (by exact hb)]
  · rw [encStep_pixel (by exact hb) (by exact hp)]
  · rw [encStep_finish (by exact hb) (by exact hc)]

/-- What an event makes of `HDR`. -/
def hdrAfter (h : Hdr) : Event → Hdr
  | .hdrEnc cfg => h.encodeHeader cfg
  | .hdrDec bytes => h.decodeHeader bytes
  | .reset .hdr => { Hdr.reset with voids := h.voids }
  | _ => h

/-- What an event makes of the encoder. -/
def encAfter (e : Enc) : Event → Enc
  | .startEncode cfg pixels => if e.phase = .busy then e else e.start cfg pixels
  | .reset .enc => { Enc.reset with voids := e.voids }
  | .run .enc => e.turned
  | _ => e

/-- What an event makes of the decoder. -/
def decAfter (d : Dec) : Event → Dec
  | .startDecode bytes => if d.phase = .busy then d else d.started bytes
  | .reset .dec => { Dec.reset with voids := d.voids }
  | .run .dec => d.turned
  | _ => d

/-- An event that is answered makes of each unit what the unit's own record and the event determine (R210). -/
theorem handle_next {s t : State} {e : Event} (h : handle e s = .next t) :
    t.hdr = hdrAfter s.hdr e ∧ t.enc = encAfter s.enc e ∧ t.dec = decAfter s.dec e := by
  cases e with
  | startEncode cfg pixels =>
    by_cases hb : s.enc.phase = .busy
    · obtain rfl := Host.Outcome.next.inj ((if_pos hb).symm.trans h)
      exact ⟨rfl, (if_pos hb).symm, rfl⟩
    · obtain rfl := Host.Outcome.next.inj ((if_neg hb).symm.trans h)
      exact ⟨rfl, (if_neg hb).symm, rfl⟩
  | startDecode bytes =>
    by_cases hb : s.dec.phase = .busy
    · obtain rfl := Host.Outcome.next.inj ((if_pos hb).symm.trans h)
      exact ⟨rfl, rfl, (if_pos hb).symm⟩
    · have hs : decStart bytes s = .next t := (if_neg hb).symm.trans h
      rw [decStart_eq bytes hb] at hs
      obtain rfl := Host.Outcome.next.inj hs
      exact ⟨rfl, rfl, (if_neg hb).symm⟩
  | hdrEnc cfg =>
    obtain rfl := Host.Outcome.next.inj h
    exact ⟨rfl, rfl, rfl⟩
  | hdrDec bytes =>
    obtain rfl := Host.Outcome.next.inj h
    exact ⟨rfl, rfl, rfl⟩
  | reset u =>
    obtain rfl := Host.Outcome.next.inj h
    cases u <;> exact ⟨rfl, rfl, rfl⟩
  | run u =>
    cases u with
    | hdr =>
      obtain rfl := Host.Outcome.next.inj h
      exact ⟨rfl, rfl, rfl⟩
    | enc =>
      obtain ⟨hh, hd⟩ := encStep_frame h
      exact ⟨hh, Enc.turned_eq h, hd⟩
    | dec =>
      obtain ⟨hh, he, _⟩ := decStep_frame h
      exact ⟨hh, he, Dec.turned_eq h⟩

/-- Settles O33: a step is a move of one unit, and on one event each unit's outcome is a function of its own record. -/
theorem unitsAreIsolated : Obligations.UnitsAreIsolated := by
  constructor
  · intro s t h
    rcases step_moves h with ⟨hh, he, _⟩ | ⟨hh, hd, _⟩ | ⟨he, hd, _⟩
    · exact .inl ⟨hh, he⟩
    · exact .inr (.inl ⟨hh, hd⟩)
    · exact .inr (.inr ⟨he, hd⟩)
  · intro s1 s2 t1 t2 e r1 r2 ha1 ha2 h1 h2
    obtain ⟨hh1, he1, hd1⟩ := handle_next ((step_event ha1).symm.trans h1)
    obtain ⟨hh2, he2, hd2⟩ := handle_next ((step_event ha2).symm.trans h2)
    exact ⟨fun h => by rw [hd1, hd2, h], fun h => by rw [he1, he2, h], fun h => by rw [hh1, hh2, h]⟩

end Sys2Proof.Machine
end

section
/-! PROOFS of 42_encoder.md section 2: the chunks a pixel step emits, as instructions (R132 to R140). -/

namespace Sys2Proof.Machine

/-- The chunk of a pending run, if there is one (R134). -/
def runChunks (run : Nat) : List Instr := if run = 0 then [] else [.rle run]

/-- The chunk of a pixel that is no run: a hit or a fresh chunk (R135 to R139). -/
def codeChunk (cache : Cache) (p prev : Pixel) : Instr :=
  if Cache.read cache (slotHash p) = p then .index (slotHash p) else freshChunk p prev

/-- The cache after the chunk of a pixel that is no run (R140). -/
def codeCache (cache : Cache) (p : Pixel) : Cache :=
  if Cache.read cache (slotHash p) = p then cache else Cache.update cache p

/-- The chunks of one pixel step. -/
def Enc.pixelChunks (e : Enc) (p : Pixel) : List Instr :=
  if p = e.prev then
    if e.run.toNat + 1 = 62 ∨ e.count + 1 = pixelCount e.cfg then [.rle (e.run.toNat + 1)] else []
  else runChunks e.run.toNat ++ [codeChunk e.cache p e.prev]

theorem toNat_eq_zero_iff (run : BitVec 6) : run.toNat = 0 ↔ run = 0 := BitVec.toNat_inj (y := 0#6)

theorem chunkBytes_runChunks (run : BitVec 6) : chunkBytes (runChunks run.toNat) = runFlush run := by
  simp only [runChunks, runFlush, toNat_eq_zero_iff]
  split_ifs with h
  · rfl
  · rw [chunkBytes_single, encode_rle_byte run h]

/-- Rows 2 to 7 in one equation: the flush, the pixel's chunk, the cache by that chunk. -/
theorem Enc.takePixel_coded (e : Enc) {p : Pixel} (hp : p ≠ e.prev) :
    e.takePixel p = { e with
      out := e.out ++ chunkBytes (runChunks e.run.toNat ++ [codeChunk e.cache p e.prev]), run := 0
      cache := codeCache e.cache p, prev := p, count := e.count + 1 } := by
  rw [chunkBytes_append, chunkBytes_runChunks, chunkBytes_single, ← List.append_assoc]
  unfold codeChunk codeCache
  split_ifs with hc
  · rw [Enc.takePixel_index e hp hc, encode_index_byte]
  · rw [Enc.takePixel_fresh e hp hc]
    rfl

/-- A pixel step emits its chunks (R45). -/
theorem Enc.takePixel_out (e : Enc) (p : Pixel) (h : e.run.toNat ≤ 61) :
    (e.takePixel p).out = e.out ++ chunkBytes (e.pixelChunks p) := by
  unfold Enc.pixelChunks
  by_cases hp : p = e.prev
  · rw [if_pos hp, hp, Enc.takePixel_prev e h]
    split_ifs
    · rw [chunkBytes_single, encode_rle_succ h]
    · rw [chunkBytes_nil, List.append_nil]
  · rw [if_neg hp, Enc.takePixel_coded e hp]

/-- The chunk of a fresh pixel is well formed: the range tests are the ranges of the fields. -/
theorem freshChunk_wellFormed (p prev : Pixel) :
    (freshChunk p prev).WellFormed ∧ frameOf (freshChunk p prev) = .chunk := by
  unfold freshChunk
  split_ifs with hd hl
  · exact ⟨((diffOk_iff p prev).mp hd).2, rfl⟩
  · exact ⟨((lumaOk_iff p prev).mp hl).2, rfl⟩
  · exact ⟨trivial, rfl⟩
  · exact ⟨trivial, rfl⟩

theorem freshChunk_writesPrev (p prev : Pixel) : writesPrev (freshChunk p prev) = true := by
  unfold freshChunk
  split_ifs <;> rfl

theorem freshChunk_not_index (p prev : Pixel) (slot : BitVec 6) : freshChunk p prev ≠ .index slot := by
  unfold freshChunk
  split_ifs <;> exact Instr.noConfusion

theorem codeChunk_wellFormed (cache : Cache) (p prev : Pixel) :
    (codeChunk cache p prev).WellFormed ∧ frameOf (codeChunk cache p prev) = .chunk := by
  unfold codeChunk
  split_ifs
  · exact ⟨trivial, rfl⟩
  · exact freshChunk_wellFormed p prev

theorem codeChunk_writesPrev (cache : Cache) (p prev : Pixel) : writesPrev (codeChunk cache p prev) = true := by
  unfold codeChunk
  split_ifs
  · rfl
  · exact freshChunk_writesPrev p prev

/-- An `INDEX` of the encoder names the slot of its pixel (R135). -/
theorem slot_of_codeChunk {cache : Cache} {p prev : Pixel} {slot : BitVec 6}
    (h : codeChunk cache p prev = .index slot) : slot = slotHash p := by
  unfold codeChunk at h
  split_ifs at h
  · cases h
    rfl
  · exact absurd h (freshChunk_not_index p prev slot)

theorem runChunks_areChunks {run : Nat} (h : run ≤ 61) : areChunks (runChunks run) := by
  unfold runChunks
  split_ifs with h0
  · exact nofun
  · intro i hi
    rw [List.mem_singleton.mp hi]
    exact ⟨⟨Nat.pos_of_ne_zero h0, Nat.le_succ_of_le h⟩, rfl⟩

/-- What a pixel step emits are well-formed chunks. -/
theorem Enc.pixelChunks_areChunks (e : Enc) (p : Pixel) (h : e.run.toNat ≤ 61) : areChunks (e.pixelChunks p) := by
  unfold Enc.pixelChunks
  split_ifs
  · intro i hi
    rw [List.mem_singleton.mp hi]
    exact ⟨⟨Nat.succ_pos _, Nat.succ_le_succ h⟩, rfl⟩
  · intro i hi
    cases hi
  · refine areChunks_append (runChunks_areChunks h) fun i hi => ?_
    rw [List.mem_singleton.mp hi]
    exact codeChunk_wellFormed _ _ _

end Sys2Proof.Machine
end

section
/-! PROOFS of 10_state.md section 7: every step keeps the invariants (R27). -/

namespace Sys2Proof.Machine

/-! `HDR` -/

theorem Hdr.inv_raise (h : Hdr) (k : ErrKind) : (h.raise k).Inv := ⟨nofun, by simp [errMatchesPhase]⟩

theorem Hdr.inv_answer (h : Hdr) (cfg : ImageConfig) (result : HdrResult) : (h.answer cfg result).Inv := by
  unfold Hdr.answer
  cases configError cfg with
  | some k => exact h.inv_raise k
  | none => exact ⟨nofun, by simp [errMatchesPhase]⟩

theorem HdrMove.keeps_inv {s : State} {h' : Hdr} (h : HdrMove s h') (hi : s.hdr.Inv) : h'.Inv := by
  cases h with
  | stays => exact hi
  | @encodes cfg _ _ =>
    rw [Hdr.encodeHeader_eq]
    exact Hdr.inv_answer _ _ _
  | @decodes bytes _ _ =>
    cases hd : Sys2Proof.decodeHeader bytes with
    | error r =>
      rw [Hdr.decodeHeader_of_error _ hd]
      exact Hdr.inv_raise _ _
    | ok x =>
      rw [Hdr.decodeHeader_of_ok _ hd]
      exact Hdr.inv_answer _ _ _
  | resets _ => exact ⟨nofun, by simp [errMatchesPhase, Hdr.reset]⟩

/-! `ENC` -/

/-- Outside `ERROR` the invariant on `ERR` says that it holds no kind. -/
theorem errMatchesPhase_congr {phase phase' : Phase} {err : Option ErrKind} (h : errMatchesPhase phase err)
    (hp : phase ≠ .error) (hp' : phase' ≠ .error) : errMatchesPhase phase' err :=
  ⟨fun hh => absurd hh hp', fun hh => absurd (h.mpr hh) hp⟩

/-- A pixel of a 3-channel image has alpha 255 (R42). -/
theorem Enc.alpha_of_pixRead {e : Enc} {i : Nat} {p : Pixel} (h : e.pixRead i = some p) (h3 : e.cfg.channels = 3) :
    p.a = 255 := by
  rw [Enc.pixRead_eq (Enc.count_lt_of_pixRead h), h3] at h
  unfold pixelOf at h
  split at h
  · cases h
    rfl
  · cases h

theorem Enc.start_busyInv {e : Enc} {cfg : ImageConfig} {pixels : List Byte} (hc : configError cfg = none)
    (hl : pixels.length = bufferLength cfg) :
    Enc.BusyInv { e with
      err := none, cfg := cfg, pixels := pixels, cache := Cache.init, prev := Config.prevInit, run := 0, count := 0,
      out := encode (.header cfg), phase := .busy } where
  cfgLegal := hc
  bufferFits := hl
  runSmall := Nat.zero_le _
  runCounted := Nat.le_refl _
  countBounded := Nat.zero_le _
  runPending := fun _ _ hi => absurd hi (Nat.not_lt_zero _)
  runFlushed := fun _ => rfl
  headerOut := Nat.le_refl _
  alphaOpaque := fun _ => rfl

/-- With no run pending, the rest of the operation's registers may hold anything in their bounds. -/
theorem Enc.BusyInv.withoutRun {e e' : Enc} (h : e.BusyInv)
    (he : e' = { e with out := e'.out, run := 0, cache := e'.cache, prev := e'.prev, count := e'.count })
    (hn : e'.count ≤ pixelCount e.cfg) (hout : e.out.length ≤ e'.out.length)
    (ha : e.cfg.channels = 3 → e'.prev.a = 255) : e'.BusyInv := by
  rw [he]
  exact
    { cfgLegal := h.cfgLegal
      bufferFits := h.bufferFits
      runSmall := Nat.zero_le _
      runCounted := Nat.zero_le _
      countBounded := hn
      runPending := fun i h1 h2 => absurd h2 (Nat.not_lt.mpr h1)
      runFlushed := fun _ => rfl
      headerOut := h.headerOut.trans hout
      alphaOpaque := ha }

theorem length_le_append (xs ys : List Byte) : xs.length ≤ (xs ++ ys).length := by
  rw [List.length_append]
  exact Nat.le_add_right _ _

/-- Row 1 while the run grows: one more pixel of the run is one more that equals `prev` (R27). -/
theorem Enc.BusyInv.growRun {e : Enc} (h : e.BusyInv) (hp : e.pixRead e.count = some e.prev)
    (hfull : e.run.toNat + 1 ≠ 62) (hlast : e.count + 1 ≠ pixelCount e.cfg) :
    Enc.BusyInv { e with run := BitVec.ofNat 6 (e.run.toNat + 1), count := e.count + 1 } := by
  have hsmall := h.runSmall
  have hcounted := h.runCounted
  have hrun : (BitVec.ofNat 6 (e.run.toNat + 1)).toNat = e.run.toNat + 1 :=
    Nat.mod_eq_of_lt (show e.run.toNat + 1 < 64 by omega)
  exact
    { cfgLegal := h.cfgLegal
      bufferFits := h.bufferFits
      runSmall := by
        simp only [hrun]
        omega
      runCounted := by
        simp only [hrun]
        omega
      countBounded := (Enc.count_lt_of_pixRead hp).1
      runPending := by
        simp only [hrun]
        intro i h1 h2
        show e.pixRead i = some e.prev
        rcases Nat.lt_succ_iff_lt_or_eq.mp h2 with h2 | rfl
        · exact h.runPending i (by omega) h2
        · exact hp
      runFlushed := fun hn => absurd hn hlast
      headerOut := h.headerOut
      alphaOpaque := h.alphaOpaque }

theorem Enc.BusyInv.keeps_prev {e : Enc} (h : e.BusyInv) (hp : e.pixRead e.count = some e.prev) :
    (e.takePixel e.prev).BusyInv := by
  rw [Enc.takePixel_prev e h.runSmall]
  split_ifs with hflush
  · exact h.withoutRun rfl (Enc.count_lt_of_pixRead hp).1 (length_le_append _ _) h.alphaOpaque
  · rw [not_or] at hflush
    exact h.growRun hp hflush.1 hflush.2

theorem Enc.BusyInv.keeps_coded {e : Enc} {p : Pixel} (h : e.BusyInv) (hp : e.pixRead e.count = some p)
    (hne : p ≠ e.prev) : (e.takePixel p).BusyInv := by
  rw [Enc.takePixel_coded e hne]
  exact h.withoutRun rfl (Enc.count_lt_of_pixRead hp).1 (length_le_append _ _) (Enc.alpha_of_pixRead hp)

/-- A pixel step keeps the invariant of the busy encoder. -/
theorem Enc.BusyInv.keeps {e : Enc} {p : Pixel} (h : e.BusyInv) (hp : e.pixRead e.count = some p) :
    (e.takePixel p).BusyInv := by
  by_cases hne : p = e.prev
  · subst hne
    exact h.keeps_prev hp
  · exact h.keeps_coded hp hne

theorem Enc.takePixel_err (e : Enc) (p : Pixel) : (e.takePixel p).err = e.err := by
  obtain ⟨_, _, _, _, h⟩ := e.takePixel_fields p
  rw [h]

theorem EncMove.keeps_inv {s : State} {e : Enc} (h : EncMove s e) (hi : s.enc.Inv) : e.Inv := by
  cases h with
  | stays => exact hi
  | @starts cfg pixels _ _ _ =>
    rcases s.enc.start_cases cfg pixels with ⟨k, hk⟩ | ⟨hc, hl, hk⟩
    · rw [hk]
      exact ⟨by simp [errMatchesPhase], nofun⟩
    · rw [hk]
      exact ⟨by simp [errMatchesPhase], fun _ => Enc.start_busyInv hc hl⟩
  | resets _ => exact ⟨by simp [errMatchesPhase, Enc.reset], nofun⟩
  | @takes _ p _ hb _ hp =>
    exact ⟨by rw [Enc.takePixel_phase, Enc.takePixel_err]; exact hi.err, fun _ => (hi.busy hb).keeps hp⟩
  | ends _ hb => exact ⟨errMatchesPhase_congr hi.err (hb ▸ nofun) nofun, nofun⟩

/-! `DEC` -/

/-- Bytes written at the end of the written part extend it. -/
theorem exactlyWritten_writeBytes {m : Memory} {n : Nat} (h : exactlyWritten m n) (xs : List Byte) :
    exactlyWritten (Memory.writeBytes m n xs) (n + xs.length) := by
  intro a
  rw [Memory.read_writeBytes]
  split_ifs with ha
  · rw [isSome_getElem?]
    omega
  · rw [h a]
    omega

theorem exactlyWritten_nil : exactlyWritten [] 0 := fun a => by simp [Memory.read]

/-- The two ways a chunk moves a busy decoder on: `n` pixels written at `count`, `len` bytes of the region executed. -/
theorem Dec.BusyInv.advance {d d' : Dec} {n len : Nat} {bytes : List Byte} (h : d.BusyInv)
    (hd : d' = { d with
      cache := d'.cache, prev := d'.prev, count := d.count + n, pos := d.pos + len,
      outbuf := Memory.writeBytes d.outbuf (d.count * d.cfg.channels.toNat) bytes })
    (hn : d.count + n ≤ pixelCount d.cfg) (hlen : len ≤ d.remaining)
    (hbytes : bytes.length = n * d.cfg.channels.toNat) : d'.BusyInv := by
  rw [hd]
  exact
    { cfgLegal := h.cfgLegal
      lengthKnown := h.lengthKnown
      runIdle := h.runIdle
      cursorLow := Nat.le_add_right_of_le h.cursorLow
      cursorHigh := by
        have hhigh := h.cursorHigh
        unfold Dec.remaining at hlen
        show d.pos + len + Config.endLen ≤ d.len
        omega
      countBounded := hn
      written := by
        have hw := exactlyWritten_writeBytes h.written bytes
        rwa [hbytes, ← Nat.add_mul] at hw }

theorem Dec.BusyInv.afterChunk {d : Dec} (h : d.BusyInv) (i : Instr) (hx : pixelExists d.cfg d.count)
    (hlen : lengthOf i ≤ d.remaining) : (d.afterChunk i).BusyInv :=
  h.advance rfl hx.1 hlen (by rw [pixelBytes_length, ← toNat_channels hx.2, Nat.one_mul])

theorem Dec.BusyInv.afterRun {d : Dec} {run : Nat} (h : d.BusyInv) (hn : d.count + run ≤ pixelCount d.cfg)
    (hlen : 1 ≤ d.remaining) : (d.afterRun run).BusyInv :=
  h.advance (by rw [Dec.afterRun, h.runIdle]) hn hlen (runBytes_length d run (channels_of_configError h.cfgLegal))

theorem Dec.begin_busyInv {d : Dec} {cfg : ImageConfig} {bytes : List Byte} (hc : configError cfg = none)
    (hl : 22 ≤ bytes.length) : (Dec.begin { d with err := none, bytes := bytes, len := bytes.length } cfg).BusyInv where
  cfgLegal := hc
  lengthKnown := rfl
  runIdle := rfl
  cursorLow := Nat.le_refl _
  cursorHigh := hl
  countBounded := Nat.zero_le _
  written := by
    rw [Dec.begin_count, Nat.zero_mul]
    exact exactlyWritten_nil

theorem Dec.inv_raise (d : Dec) (k : ErrKind) : (d.raise k).Inv where
  err := by simp [errMatchesPhase]
  memory := Memory.wf_ofBytes _
  busy := nofun
  done := nofun

theorem DecMove.keeps_inv {s : State} {d : Dec} (h : DecMove s d) (hi : s.dec.Inv) : d.Inv := by
  cases h with
  | stays => exact hi
  | @starts bytes _ _ _ =>
    rcases s.dec.started_cases bytes with ⟨k, hk⟩ | ⟨cfg, hc, hl, hk⟩
    · rw [hk]
      exact Dec.inv_raise _ k
    · rw [hk]
      exact ⟨by simp [errMatchesPhase], Memory.wf_nil, fun _ => Dec.begin_busyInv hc hl, nofun⟩
  | resets _ =>
    exact ⟨by simp [errMatchesPhase, Dec.reset], Memory.wf_nil, nofun, nofun⟩
  | raises k _ _ => exact Dec.inv_raise _ k
  | @writes _ i _ _ hr _ _ hx hl =>
    exact ⟨hi.err, Memory.wf_writeBytes _ _ _ hi.memory, fun _ => (hi.busy hr.1).afterChunk i hx hl,
      fun hd => by cases hr.1.symm.trans hd⟩
  | repeats _ hr _ hn hl =>
    exact ⟨hi.err, Memory.wf_writeBytes _ _ _ hi.memory, fun _ => (hi.busy hr.1).afterRun hn hl,
      fun hd => by cases hr.1.symm.trans hd⟩
  | ends _ hat hc =>
    refine ⟨errMatchesPhase_congr hi.err (hat.1 ▸ nofun) nofun, hi.memory, nofun,
      fun _ => ?_⟩
    have hw := (hi.busy hat.1).written
    rwa [hc] at hw

theorem step_keeps_inv {s t : State} (hi : s.Inv) (h : step s = .next t) : t.Inv :=
  ⟨(step_hdrMove h).keeps_inv hi.hdr, (step_encMove h).keeps_inv hi.enc, (step_decMove h).keeps_inv hi.dec⟩

/-! `prev` and the cache -/

/-- A chunk that writes `prev` leaves it in its slot, an `INDEX` if it names that slot. -/
theorem prevCached_chunkCache {i : Instr} {cache : Cache} {prev : Pixel} (hw : writesPrev i = true)
    (hslot : ∀ slot, i = .index slot → slot = slotHash (chunkPixel i cache prev)) :
    prevCached (chunkCache i cache prev) (chunkPixel i cache prev) := by
  cases i with
  | rgb r g b => exact prevCached_update _ _
  | rgba r g b a => exact prevCached_update _ _
  | index slot => exact congrArg (Cache.read cache) (hslot slot rfl).symm
  | diff dr dg db => exact prevCached_update _ _
  | luma dg drg dbg => exact prevCached_update _ _
  | rle run => cases hw
  | header cfg => cases hw
  | endMarker => cases hw

theorem Enc.PrevInv.keeps {e : Enc} {p : Pixel} {chunks : List Instr} (hb : e.BusyInv) (h : e.PrevInv chunks) :
    (e.takePixel p).PrevInv (chunks ++ e.pixelChunks p) := by
  have hwf := areChunks_append h.wellFormed (e.pixelChunks_areChunks p hb.runSmall)
  have hcfg : (e.takePixel p).cfg = e.cfg := by
    obtain ⟨_, _, _, _, hf⟩ := e.takePixel_fields p
    rw [hf]
  have hout : (e.takePixel p).out = encode (.header (e.takePixel p).cfg) ++ chunkBytes (chunks ++ e.pixelChunks p) := by
    rw [e.takePixel_out p hb.runSmall, h.emitted, hcfg, chunkBytes_append, List.append_assoc]
  by_cases hp : p = e.prev
  · have hwriter : prevWriter (chunks ++ e.pixelChunks p) = prevWriter chunks := by
      unfold Enc.pixelChunks
      rw [if_pos hp]
      split_ifs
      · exact prevWriter_append_rle _ _
      · rw [List.append_nil]
    have hkept : (e.takePixel p).prev = e.prev ∧ (e.takePixel p).cache = e.cache := by
      rw [hp, Enc.takePixel_prev e hb.runSmall]
      split_ifs <;> exact ⟨rfl, rfl⟩
    obtain ⟨hprev, hcache⟩ := hkept
    refine ⟨hwf, hout, ?_, ?_, ?_⟩ <;> rw [hwriter, hprev]
    · exact h.start
    · rw [hcache]
      exact h.cached
    · exact h.index
  · have hwriter : prevWriter (chunks ++ e.pixelChunks p) = some (codeChunk e.cache p e.prev) := by
      unfold Enc.pixelChunks
      rw [if_neg hp, ← List.append_assoc]
      exact prevWriter_append_writer _ (codeChunk_writesPrev _ _ _)
    refine ⟨hwf, hout, ?_, ?_, ?_⟩ <;> rw [hwriter, Enc.takePixel_coded e hp]
    · exact nofun
    · rintro i -
      show prevCached (codeCache e.cache p) p
      unfold codeCache
      split_ifs with hc
      · exact hc
      · exact prevCached_update _ _
    · intro slot hslot
      exact slot_of_codeChunk (Option.some.inj hslot)

theorem EncMove.keeps_prevInv {s : State} {e : Enc} (h : EncMove s e) (hi : s.enc.Inv)
    (hp : s.enc.phase = .busy → ∃ chunks, s.enc.PrevInv chunks) (hbusy : e.phase = .busy) :
    ∃ chunks, e.PrevInv chunks := by
  cases h with
  | stays => exact hp hbusy
  | @starts cfg pixels _ _ _ =>
    rw [Enc.start_eq_of_busy hbusy]
    exact ⟨[], nofun, (List.append_nil _).symm, fun _ => rfl, nofun, nofun⟩
  | resets _ => cases hbusy
  | takes _ hb _ _ =>
    obtain ⟨chunks, hc⟩ := hp hb
    exact ⟨_, hc.keeps (hi.busy hb)⟩
  | ends => cases hbusy

/-- The chunk at the front of the region lies in it. -/
theorem Dec.lengthOf_le_remaining {d : Dec} {i : Instr} {rest : List Byte} (h : encode i ++ rest = d.region) :
    lengthOf i ≤ d.remaining := by
  have hlen := d.region_length_le
  rw [← h, List.length_append, encode_length] at hlen
  omega

/-- The bytes executed up to a cursor that has moved over one more chunk. -/
theorem Dec.executed_append {d : Dec} {i : Instr} {rest : List Byte} (h : d.BusyInv)
    (hfront : encode i ++ rest = d.region) :
    (d.bytes.take (d.pos + lengthOf i)).drop Config.headerLen =
      (d.bytes.take d.pos).drop Config.headerLen ++ encode i := by
  have hregion : encode i = (d.bytes.drop d.pos).take (lengthOf i) := by
    have htake : d.region = (d.bytes.drop d.pos).take d.remaining := by
      rw [Dec.region, List.drop_take]
      rfl
    calc encode i = (encode i ++ rest).take (lengthOf i) := by rw [← encode_length, List.take_left]
      _ = _ := by rw [hfront, htake, List.take_take, Nat.min_eq_left (Dec.lengthOf_le_remaining hfront)]
  have hpos : Config.headerLen ≤ (d.bytes.take d.pos).length := by
    have h1 := h.cursorLow
    have h2 := h.cursorHigh
    rw [h.lengthKnown] at h2
    rw [List.length_take]
    omega
  rw [hregion, List.take_add, List.drop_append_of_le_length hpos]

/-- A decoded chunk joins the chunks executed. -/
theorem Dec.PrevInv.extend {d : Dec} {chunks : List Instr} {i : Instr} {rest : List Byte} (hb : d.BusyInv)
    (h : d.PrevInv chunks) (hd : decode .chunk d.region = .ok (i, rest)) :
    areChunks (chunks ++ [i]) ∧
      (d.bytes.take (d.pos + lengthOf i)).drop Config.headerLen = chunkBytes (chunks ++ [i]) := by
  obtain ⟨hwf, hfront⟩ := encode_of_decodeChunk hd
  refine ⟨areChunks_append h.wellFormed fun j hj => ?_, ?_⟩
  · rw [List.mem_singleton.mp hj]
    exact ⟨hwf, frameOf_of_decodeChunk hd⟩
  · rw [chunkBytes_append, chunkBytes_single, ← h.executed]
    exact Dec.executed_append hb hfront

theorem DecMove.keeps_prevInv {s : State} {d : Dec} (h : DecMove s d) (hi : s.dec.Inv)
    (hp : s.dec.phase = .busy → ∃ chunks, s.dec.PrevInv chunks) (hbusy : d.phase = .busy) :
    ∃ chunks, d.PrevInv chunks := by
  cases h with
  | stays => exact hp hbusy
  | @starts bytes _ _ _ =>
    rcases s.dec.started_cases bytes with ⟨k, hk⟩ | ⟨cfg, hc, hl, hk⟩
    · rw [hk] at hbusy
      cases hbusy
    · rw [hk]
      refine ⟨[], nofun, ?_, fun _ => rfl, nofun⟩
      exact List.drop_eq_nil_of_le (List.length_take_le _ _)
  | resets _ => cases hbusy
  | raises => cases hbusy
  | @writes _ i _ _ hr hd hw _ _ =>
    obtain ⟨chunks, hc⟩ := hp hr.1
    obtain ⟨hwf, hexec⟩ := hc.extend (hi.busy hr.1) hd
    refine ⟨chunks ++ [i], hwf, hexec, ?_, ?_⟩ <;> rw [prevWriter_append_writer _ hw]
    · exact nofun
    · intro j hj hslot
      cases hj
      exact prevCached_chunkCache hw hslot
  | @repeats _ run _ _ hr hd _ _ =>
    obtain ⟨chunks, hc⟩ := hp hr.1
    obtain ⟨hwf, hexec⟩ := hc.extend (hi.busy hr.1) hd
    refine ⟨chunks ++ [.rle run], hwf, by exact hexec, ?_, ?_⟩ <;> rw [prevWriter_append_rle]
    · exact hc.start
    · exact hc.cached
  | ends => cases hbusy

/-- Settles O51: each unit's invariant, move by move. -/
theorem stepKeepsInvariant : Obligations.StepKeepsInvariant :=
  ⟨fun _ _ hi h => step_keeps_inv hi h, fun _ _ hi hp h =>
    ⟨(step_encMove h).keeps_prevInv hi.enc hp.enc, (step_decMove h).keeps_prevInv hi.dec hp.dec⟩⟩

/-- Settles O52: after reset no unit is `BUSY` and nothing is written. -/
theorem resetMeetsInvariant : Obligations.ResetMeetsInvariant :=
  ⟨{  hdr := ⟨nofun, by simp [errMatchesPhase, State.reset, Hdr.reset]⟩
      enc := ⟨by simp [errMatchesPhase, State.reset, Enc.reset], nofun⟩
      dec := ⟨by simp [errMatchesPhase, State.reset, Dec.reset], Memory.wf_nil, nofun, nofun⟩ },
    ⟨nofun, nofun⟩⟩

/-- Settles O41: the invariant of the next state says it. -/
theorem noRunPendingAtEnd : Obligations.NoRunPendingAtEnd :=
  fun _ _ _ hi _ _ h hb hn => ((step_keeps_inv hi h).enc.busy hb).runFlushed hn

/-- Settles O43: both alphas are 255, and `RGBA` is the chunk of a pixel whose alpha changes. -/
theorem threeChannelsNeverRgba : Obligations.ThreeChannelsNeverRgba := by
  intro e p hi h3 hp
  have ha : p.a = e.prev.a := (Enc.alpha_of_pixRead hp h3).trans (hi.alphaOpaque h3).symm
  refine ⟨ha, fun r g b a => ?_⟩
  unfold freshChunk
  dsimp only
  rw [if_pos ha]
  split_ifs <;> exact Instr.noConfusion

end Sys2Proof.Machine
end

section
/-! PROOFS of 60_exceptions.md section 4 (no stop) and 10_state.md sections 5 and 8 (the whole image). -/

namespace Sys2Proof.Machine

/-- A chunk step answers a next state, whatever the chunk, while `CHANNELS` and the count are legal. -/
theorem exec_chunk_total {i : Instr} {s : State} (hwf : i.WellFormed) (hf : frameOf i = .chunk) (hr : s.dec.inRegion)
    (hch : s.dec.cfg.channels = 3 ∨ s.dec.cfg.channels = 4) (hn : s.dec.count ≤ pixelCount s.dec.cfg) :
    ∃ t, exec i s = .next t := by
  by_cases hc : s.dec.count = pixelCount s.dec.cfg
  · exact ⟨_, completeImageRefusesChunk i s hf hr hc⟩
  · have hlt : s.dec.count < pixelCount s.dec.cfg := Nat.lt_of_le_of_ne hn hc
    by_cases hl : s.dec.remaining < lengthOf i
    · obtain ⟨effect, he⟩ := exec_chunk_eq hf s
      exact ⟨_, he.trans (chunkStep_short effect hr hlt hl)⟩
    · have hready : s.dec.readyFor (lengthOf i) := ⟨hr, hlt, Nat.not_lt.mp hl, hch⟩
      rcases writesPrev_or_rle hf with hw | ⟨run, rfl⟩
      · exact ⟨_, (exec_writer_eq hw s).trans (putPixel_of_readyFor _ _ hready)⟩
      · by_cases hrun : pixelCount s.dec.cfg < s.dec.count + run
        · exact ⟨_, execRle_of_overrun hready hrun⟩
        · exact ⟨_, execRle_of_fits hready hwf.1 (Nat.not_lt.mp hrun)⟩

theorem finishStep_total {s : State} (markerOk : Bool) (h : s.dec.atTrailer) : ∃ t, finishStep s markerOk = .next t := by
  by_cases hc : s.dec.count = pixelCount s.dec.cfg
  · rw [finishStep_of_whole markerOk h hc]
    split_ifs
    · exact ⟨_, rfl⟩
    · exact ⟨_, rfl⟩
  · exact ⟨_, finishStep_of_short markerOk h hc⟩

/-- The decoder's turn is answered while the invariant of the busy decoder holds. -/
theorem decStep_total {s : State} (h : s.dec.phase = .busy → s.dec.BusyInv) : ∃ t, decStep s = .next t := by
  by_cases hb : s.dec.phase = .busy
  · have hi := h hb
    rcases Nat.lt_or_eq_of_le hi.cursorHigh with hlt | heq
    · have hr : s.dec.inRegion := ⟨hb, hlt⟩
      cases hd : decode .chunk s.dec.region with
      | error r => exact ⟨_, decStep_cut hr hd⟩
      | ok x =>
        obtain ⟨i, rest⟩ := x
        rw [decStep_chunk hr hd]
        exact exec_chunk_total (encode_of_decodeChunk hd).1 (frameOf_of_decodeChunk hd) hr
          (channels_of_configError hi.cfgLegal) hi.countBounded
    · have hat : s.dec.atTrailer := ⟨hb, heq⟩
      rw [decStep_atTrailer hat]
      exact finishStep_total _ hat
  · exact ⟨s, decStep_waits hb⟩

/-- Every pixel of the image is there to be read (R41). -/
theorem Enc.BusyInv.pixRead_some {e : Enc} (h : e.BusyInv) {i : Nat} (hi : i < pixelCount e.cfg) :
    ∃ p, e.pixRead i = some p := by
  obtain ⟨h3, h4⟩ := pixReadGivesPixel e i h.bufferFits hi
  rcases channels_of_configError h.cfgLegal with hc | hc
  · obtain ⟨r, g, b, _, _, _, hp⟩ := h3 hc
    exact ⟨_, hp⟩
  · obtain ⟨r, g, b, a, _, _, _, _, hp⟩ := h4 hc
    exact ⟨_, hp⟩

/-- The encoder's turn is answered while the invariant of the busy encoder holds. -/
theorem encStep_total {s : State} (h : s.enc.phase = .busy → s.enc.BusyInv) : ∃ t, encStep s = .next t := by
  by_cases hb : s.enc.phase = .busy
  · have hi := h hb
    rcases Nat.lt_or_eq_of_le hi.countBounded with hlt | heq
    · obtain ⟨p, hp⟩ := hi.pixRead_some hlt
      exact ⟨_, encStep_pixel hb hp⟩
    · exact ⟨_, encStep_finish hb heq⟩
  · exact ⟨s, encStep_waits hb⟩

/-- Settles O53: commands and resets are always answered, and so is a turn under the unit's invariant. -/
theorem noStopUnderInvariant : Obligations.NoStopUnderInvariant := by
  intro s hi
  cases ha : s.agenda with
  | nil =>
    rw [step_turn ha]
    unfold defaultUnit
    split_ifs
    · exact decStep_total hi.dec.busy
    · exact encStep_total hi.enc.busy
  | cons e rest =>
    rw [step_event ha]
    cases e with
    | startEncode cfg pixels =>
      by_cases hb : s.enc.phase = .busy
      · exact ⟨_, if_pos hb⟩
      · exact ⟨_, if_neg hb⟩
    | startDecode bytes =>
      by_cases hb : s.dec.phase = .busy
      · exact ⟨_, if_pos hb⟩
      · exact ⟨_, (if_neg hb).trans (decStart_eq bytes hb)⟩
    | hdrEnc cfg => exact ⟨_, rfl⟩
    | hdrDec bytes => exact ⟨_, rfl⟩
    | reset u => exact ⟨_, rfl⟩
    | run u =>
      cases u with
      | hdr => exact ⟨_, rfl⟩
      | enc => exact encStep_total (s := { s with agenda := rest }) hi.enc.busy
      | dec => exact decStep_total (s := { s with agenda := rest }) hi.dec.busy

/-- A stretch of memory that is written throughout is read as a whole (R22, U7). -/
theorem Memory.readBytes_of_written {m : Memory} (n : Nat) {k : Nat}
    (h : ∀ a, a < n → (Memory.read m (k + a)).isSome = true) : ∃ bs, Memory.readBytes m k n = some bs := by
  induction n generalizing k with
  | zero => exact ⟨[], rfl⟩
  | succ n ih =>
    obtain ⟨x, hx⟩ := Option.isSome_iff_exists.mp (h 0 (Nat.succ_pos n))
    obtain ⟨xs, hxs⟩ := ih (k := k + 1) fun a ha => by
      rw [Nat.add_assoc, Nat.add_comm 1 a]
      exact h (a + 1) (Nat.succ_lt_succ ha)
    exact ⟨x :: xs, by simp only [Memory.readBytes, show Memory.read m k = some x from hx, hxs, Option.bind_some,
      Option.map_some]⟩

/-- The bytes read as a whole are those of the single addresses. -/
theorem Memory.getElem?_of_readBytes {m : Memory} {n k : Nat} {bs : List Byte} (h : Memory.readBytes m k n = some bs) :
    bs.length = n ∧ ∀ a, a < n → bs[a]? = Memory.read m (k + a) := by
  induction n generalizing k bs with
  | zero =>
    cases h
    exact ⟨rfl, fun a ha => absurd ha (Nat.not_lt_zero a)⟩
  | succ n ih =>
    simp only [Memory.readBytes, Option.bind_eq_some_iff, Option.map_eq_some_iff] at h
    obtain ⟨x, hx, xs, hxs, rfl⟩ := h
    obtain ⟨hlen, hget⟩ := ih hxs
    refine ⟨congrArg (· + 1) hlen, fun a ha => ?_⟩
    cases a with
    | zero => exact hx.symm
    | succ a =>
      rw [List.getElem?_cons_succ, hget a (Nat.lt_of_succ_lt_succ ha), Nat.add_assoc, Nat.add_comm 1 a]

/-- Settles O60: every position is written, so the buffer is read as a whole. -/
theorem doneImageIsWhole : Obligations.DoneImageIsWhole := by
  intro s hi hdone
  have hw := hi.dec.done hdone
  obtain ⟨bs, hbs⟩ := Memory.readBytes_of_written (m := s.dec.outbuf) (bufferLength s.dec.cfg) (k := 0) fun a ha => by
    rw [Nat.zero_add]
    exact (hw a).mpr ha
  obtain ⟨hlen, hget⟩ := Memory.getElem?_of_readBytes hbs
  refine ⟨⟨s.dec.cfg, bs⟩, ?_, rfl, hlen, fun a ha => ?_⟩
  · rw [Dec.view, hdone, Dec.image, hbs]
    rfl
  · rw [Dec.readOut, if_pos hdone, hget a ha, Nat.zero_add]

end Sys2Proof.Machine
end

section
/-! PROOFS of 70_reset_and_hazards.md section 2: encoder and decoder in lockstep (R226). -/

namespace Sys2Proof.Machine

/-- A fresh chunk stands for its pixel, whatever the cache holds: the inverse laws (R119 to R121). -/
theorem chunkPixel_freshChunk (p prev : Pixel) (cache : Cache) : chunkPixel (freshChunk p prev) cache prev = p := by
  unfold freshChunk
  split_ifs with hd hl ha
  · exact (inverseLaws p prev).1 hd
  · exact (inverseLaws p prev).2 hl
  · exact congrArg (Pixel.mk p.r p.g p.b) ha.symm
  · rfl

theorem chunkCache_of_ne_index {i : Instr} (h : ∀ slot, i ≠ .index slot) (cache : Cache) (prev : Pixel) :
    chunkCache i cache prev = Cache.update cache (chunkPixel i cache prev) := by
  cases i with
  | index slot => exact absurd rfl (h slot)
  | _ => rfl

/-- What the decoder makes of the chunk of a pixel that is no run: that pixel. -/
theorem chunkPixel_codeChunk (cache : Cache) (p prev : Pixel) : chunkPixel (codeChunk cache p prev) cache prev = p := by
  unfold codeChunk
  split_ifs with hc
  · exact hc
  · exact chunkPixel_freshChunk p prev cache

/-- The decoder's cache after the chunk of a pixel that is no run: the encoder's. -/
theorem chunkCache_codeChunk (cache : Cache) (p prev : Pixel) :
    chunkCache (codeChunk cache p prev) cache prev = codeCache cache p := by
  unfold codeChunk codeCache
  split_ifs with hc
  · rfl
  · rw [chunkCache_of_ne_index (freshChunk_not_index p prev), chunkPixel_freshChunk]

/-- A pixel that is no run costs at most 4 bytes if its alpha is that of `prev`, and else at most 5 (R135 to R139). -/
theorem lengthOf_codeChunk_le (cache : Cache) (p prev : Pixel) :
    lengthOf (codeChunk cache p prev) ≤ if p.a = prev.a then 4 else 5 := by
  unfold codeChunk freshChunk
  dsimp only
  split_ifs <;> simp [lengthOf]

theorem lengthOf_codeChunk_le_five (cache : Cache) (p prev : Pixel) : lengthOf (codeChunk cache p prev) ≤ 5 := by
  have h := lengthOf_codeChunk_le cache p prev
  split_ifs at h <;> omega

/-- A ready chunk of one pixel, in one equation. -/
theorem exec_writer_of_readyFor {i : Instr} {s : State} (hw : writesPrev i = true) (h : s.dec.readyFor (lengthOf i)) :
    exec i s = .next { s with dec := s.dec.afterChunk i } :=
  (exec_writer_eq hw s).trans (putPixel_of_readyFor _ _ h)

theorem execAll_single {i : Instr} {s t : State} (h : exec i s = .next t) : execAll [i] s = .next t := by
  simp only [execAll, h]

theorem execAll_append {is js : List Instr} {s t : State} (h : execAll is s = .next t) :
    execAll (is ++ js) s = execAll js t := by
  induction is generalizing s with
  | nil =>
    cases h
    rfl
  | cons i is ih =>
    simp only [List.cons_append, execAll] at h ⊢
    cases hx : exec i s with
    | next u =>
      simp only [hx] at h ⊢
      exact ih h
    | fault r => simp [hx] at h
    | refused r => simp [hx] at h

/-- A busy decoder in step with the encoder: it has decoded all but the pending run (R226). -/
structure Dec.Tracks (d : Dec) (e : Enc) : Prop where
  busy : d.phase = .busy
  cfg : d.cfg = e.cfg
  cache : d.cache = e.cache
  prev : d.prev = e.prev
  count : d.count = e.count - e.run.toNat

/-- A decoder in step, with room for one more chunk, is ready for it. -/
theorem Dec.Tracks.readyFor {d : Dec} {e : Enc} (h : d.Tracks e) (hi : e.BusyInv) (hlt : e.count < pixelCount e.cfg)
    {len : Nat} (hlen : 1 ≤ len) (hroom : d.pos + len + 8 ≤ d.len) : d.readyFor len := by
  refine ⟨⟨h.busy, show d.pos + 8 < d.len by omega⟩, ?_, show len ≤ d.len - 8 - d.pos by omega, ?_⟩
  · rw [h.count, h.cfg]
    omega
  · rw [h.cfg]
    exact channels_of_configError hi.cfgLegal

/-- The chunk of a run that the encoder has counted is executed as a whole. -/
theorem Dec.Tracks.exec_rle {s : State} {e : Enc} (h : s.dec.Tracks e) (hi : e.BusyInv)
    (hlt : e.count < pixelCount e.cfg) (hroom : s.dec.pos + 9 ≤ s.dec.len) {run : Nat} (h1 : 1 ≤ run)
    (hn : s.dec.count + run ≤ pixelCount e.cfg) :
    exec (.rle run) s = .next { s with dec := s.dec.afterRun run } :=
  execRle_of_fits (h.readyFor hi hlt (Nat.le_refl 1) hroom) h1 (h.cfg ▸ hn)

/-- Executing the flush leaves the decoder in step with the encoder after its flush. -/
theorem Dec.Tracks.flush {s : State} {e : Enc} (h : s.dec.Tracks e) (hi : e.BusyInv)
    (hlt : e.count < pixelCount e.cfg) (hroom : s.dec.pos + 9 ≤ s.dec.len) :
    ∃ t, execAll (runChunks e.run.toNat) s = .next t ∧ t.dec.Tracks { e with run := 0 } ∧ t.dec.len = s.dec.len ∧
      t.dec.pos ≤ s.dec.pos + 1 := by
  have hcounted := hi.runCounted
  have hcount := h.count
  unfold runChunks
  split_ifs with h0
  · rw [h0] at hcount
    exact ⟨s, rfl, ⟨h.busy, h.cfg, h.cache, h.prev, hcount⟩, rfl, Nat.le_succ _⟩
  · have hx := h.exec_rle hi hlt hroom (Nat.pos_of_ne_zero h0) (by omega)
    refine ⟨_, execAll_single hx, ⟨h.busy, h.cfg, h.cache, h.prev, ?_⟩, rfl, Nat.le_refl _⟩
    show s.dec.count + e.run.toNat = e.count - 0
    omega

/-- Executing the chunk of a pixel that is no run leaves the decoder in step with the encoder after its pixel step. -/
theorem Dec.Tracks.code {s : State} {e : Enc} {p : Pixel} (h : s.dec.Tracks { e with run := 0 }) (hi : e.BusyInv)
    (hlt : e.count < pixelCount e.cfg) (hp : p ≠ e.prev) (hroom : s.dec.pos + 13 ≤ s.dec.len) :
    ∃ t, exec (codeChunk e.cache p e.prev) s = .next t ∧ t.dec.Tracks (e.takePixel p) := by
  have hlen := lengthOf_codeChunk_le_five e.cache p e.prev
  have hi0 : Enc.BusyInv { e with run := 0 } := hi.withoutRun rfl hi.countBounded (Nat.le_refl _) hi.alphaOpaque
  have hready := h.readyFor hi0 hlt (lengthOf_pos (codeChunk e.cache p e.prev)) (by omega)
  refine ⟨_, exec_writer_of_readyFor (codeChunk_writesPrev _ _ _) hready, ?_⟩
  have hcache : s.dec.cache = e.cache := h.cache
  have hprev : s.dec.prev = e.prev := h.prev
  rw [Enc.takePixel_coded e hp]
  refine ⟨h.busy, h.cfg, ?_, ?_, congrArg (· + 1) h.count⟩
  · show chunkCache _ s.dec.cache s.dec.prev = _
    rw [hcache, hprev, chunkCache_codeChunk]
  · show chunkPixel _ s.dec.cache s.dec.prev = p
    rw [hcache, hprev, chunkPixel_codeChunk]

/-- The whole pixel step: the decoder executes the chunks emitted for it and is in step again. -/
theorem Dec.Tracks.pixel {s : State} {e : Enc} {p : Pixel} (h : s.dec.Tracks e) (hi : e.BusyInv)
    (hp : e.pixRead e.count = some p) (hroom : s.dec.pos + 14 ≤ s.dec.len) :
    ∃ t, execAll (e.pixelChunks p) s = .next t ∧ t.dec.Tracks (e.takePixel p) := by
  have hlt : e.count < pixelCount e.cfg := (Enc.count_lt_of_pixRead hp).1
  have hsmall := hi.runSmall
  have hcounted := hi.runCounted
  have hcount := h.count
  unfold Enc.pixelChunks
  split_ifs with hprev hflush
  · have hx := h.exec_rle hi hlt (by omega) (Nat.succ_pos e.run.toNat) (by omega)
    refine ⟨_, execAll_single hx, ?_⟩
    rw [hprev, Enc.takePixel_prev e hsmall, if_pos hflush]
    refine ⟨h.busy, h.cfg, h.cache, h.prev, ?_⟩
    show s.dec.count + (e.run.toNat + 1) = e.count + 1 - 0
    omega
  · refine ⟨s, rfl, ?_⟩
    rw [hprev, Enc.takePixel_prev e hsmall, if_neg hflush]
    refine ⟨h.busy, h.cfg, h.cache, h.prev, ?_⟩
    show s.dec.count = e.count + 1 - (BitVec.ofNat 6 (e.run.toNat + 1)).toNat
    rw [BitVec.toNat_ofNat]
    omega
  · obtain ⟨u, hu, htrack, hlen, hpos⟩ := h.flush hi hlt (by omega)
    obtain ⟨t, ht, htrack'⟩ := htrack.code hi hlt hprev (by omega)
    exact ⟨t, (execAll_append hu).trans (execAll_single ht), htrack'⟩

theorem Enc.takePixel_cfg (e : Enc) (p : Pixel) : (e.takePixel p).cfg = e.cfg := by
  obtain ⟨_, _, _, _, h⟩ := e.takePixel_fields p
  rw [h]

/-- Settles O57: the chunks of the pixel step, executed in step. -/
theorem lockstepOfOnePixel : Obligations.LockstepOfOnePixel := by
  intro e p s hi hp hbusy hcfg hcache hprev hcount hroom
  obtain ⟨t, hexec, ht⟩ := Dec.Tracks.pixel ⟨hbusy, hcfg, hcache, hprev, hcount⟩ hi hp hroom
  exact ⟨e.pixelChunks p, t, e.takePixel_out p hi.runSmall, e.pixelChunks_areChunks p hi.runSmall, hexec, ht.busy,
    ht.cfg.trans (e.takePixel_cfg p), ht.cache, ht.prev, ht.count⟩

end Sys2Proof.Machine
end

section
/-! PROOFS of 42_encoder.md section 4: the encoder's steps compute `ENCODE` (R142). -/

namespace Sys2Proof.Machine

/-! The pixels of a buffer -/

theorem rgbPixels_getElem? (bs : List Byte) (i : Nat) : (rgbPixels bs)[i]? = pixelOf 3 (bs.drop (i * 3)) := by
  induction i generalizing bs with
  | zero =>
    match bs with
    | [] => rfl
    | [_] => rfl
    | [_, _] => rfl
    | _ :: _ :: _ :: _ => rfl
  | succ i ih =>
    rw [Nat.succ_mul]
    match bs with
    | [] => rfl
    | [_] => rfl
    | [_, _] => rfl
    | _ :: _ :: _ :: rest => exact ih rest

theorem rgbaPixels_getElem? (bs : List Byte) (i : Nat) : (rgbaPixels bs)[i]? = pixelOf 4 (bs.drop (i * 4)) := by
  induction i generalizing bs with
  | zero =>
    match bs with
    | [] => rfl
    | [_] => rfl
    | [_, _] => rfl
    | [_, _, _] => rfl
    | _ :: _ :: _ :: _ :: _ => rfl
  | succ i ih =>
    rw [Nat.succ_mul]
    match bs with
    | [] => rfl
    | [_] => rfl
    | [_, _] => rfl
    | [_, _, _] => rfl
    | _ :: _ :: _ :: _ :: rest => exact ih rest

/-- The list of pixels is what `PixRead` reads, one by one (R41, R42). -/
theorem pixelsOf_getElem? {c : Byte} (h : c = 3 ∨ c = 4) (bs : List Byte) (i : Nat) :
    (pixelsOf c bs)[i]? = pixelOf c (bs.drop (i * c.toNat)) := by
  rcases h with rfl | rfl
  · exact rgbPixels_getElem? bs i
  · exact rgbaPixels_getElem? bs i

theorem rgbPixels_length (bs : List Byte) : (rgbPixels bs).length = bs.length / 3 := by
  induction bs using rgbPixels.induct with
  | case1 r g b rest ih =>
    simp only [rgbPixels, List.length_cons, ih]
    omega
  | case2 bs h =>
    match bs, h with
    | [], _ => rfl
    | [_], _ => simp [rgbPixels]
    | [_, _], _ => simp [rgbPixels]
    | _ :: _ :: _ :: _, h => exact absurd rfl (h _ _ _ _)

theorem rgbaPixels_length (bs : List Byte) : (rgbaPixels bs).length = bs.length / 4 := by
  induction bs using rgbaPixels.induct with
  | case1 r g b a rest ih =>
    simp only [rgbaPixels, List.length_cons, ih]
    omega
  | case2 bs h =>
    match bs, h with
    | [], _ => rfl
    | [_], _ => simp [rgbaPixels]
    | [_, _], _ => simp [rgbaPixels]
    | [_, _, _], _ => simp [rgbaPixels]
    | _ :: _ :: _ :: _ :: _, h => exact absurd rfl (h _ _ _ _ _)

/-- A raw pixel buffer of the right length holds `N` pixels (R41). -/
theorem pixelsOf_length {cfg : ImageConfig} {pixels : List Byte} (hc : configError cfg = none)
    (hl : pixels.length = bufferLength cfg) : (pixelsOf cfg.channels pixels).length = pixelCount cfg := by
  unfold bufferLength at hl
  rcases channels_of_configError hc with h | h <;> rw [h] at hl ⊢
  · rw [show (3 : Byte).toNat = 3 from rfl] at hl
    show (rgbPixels pixels).length = _
    rw [rgbPixels_length, hl, Nat.mul_div_cancel _ (by decide)]
  · rw [show (4 : Byte).toNat = 4 from rfl] at hl
    show (rgbaPixels pixels).length = _
    rw [rgbaPixels_length, hl, Nat.mul_div_cancel _ (by decide)]

/-! The bytes of `ENCODE`'s loop are those of chunks -/

/-- R142's bytes of a pixel that keeps the alpha, on the deltas of R111 and R112. -/
theorem freshBytes_of_alpha {p prev : Pixel} (h : p.a = prev.a) :
    freshBytes p prev =
      if diffOk p prev = true then
        [BitVec.ofInt 8 (0x40 + ((deltasOf p prev).dr + 2) * 16 + ((deltasOf p prev).dg + 2) * 4 + ((deltasOf p prev).db + 2))]
      else if lumaOk p prev = true then
        [BitVec.ofInt 8 (0x80 + (deltasOf p prev).dg + 32),
          BitVec.ofInt 8 (((deltasOf p prev).drg + 8) * 16 + ((deltasOf p prev).dbg + 8))]
      else [0xFE, p.r, p.g, p.b] := by
  simp only [freshBytes, diffOk_iff, lumaOk_iff, h, true_and]
  rfl

/-- The sums of R142 are the encoded fresh chunk. -/
theorem freshBytes_eq (p prev : Pixel) : freshBytes p prev = encode (freshChunk p prev) := by
  by_cases ha : p.a = prev.a
  · rw [freshBytes_of_alpha ha]
    split_ifs with hd hl
    · exact (encode_freshChunk_diff hd).symm
    · rw [encode_freshChunk_luma (Bool.eq_false_iff.mpr hd) hl, Int.add_assoc]
    · rw [encode_freshChunk_literal (Bool.eq_false_iff.mpr hd) (Bool.eq_false_iff.mpr hl), if_pos ha]
  · have hd : diffOk p prev = false := Bool.eq_false_iff.mpr fun h => ha ((diffOk_iff p prev).mp h).1
    have hl : lumaOk p prev = false := Bool.eq_false_iff.mpr fun h => ha ((lumaOk_iff p prev).mp h).1
    rw [freshBytes, if_neg ha, encode_freshChunk_literal hd hl, if_neg ha]

/-- The byte of a run of `run + 1` pixels (R142). -/
theorem byteOf_run {run : Nat} (h : run ≤ 61) : [byteOf (0xC0 + run)] = encode (.rle (run + 1)) := by
  rw [encode_rle_succ h]
  exact congrArg (fun b => [b]) (BitVec.ofInt_natCast 8 (0xC0 + run))

theorem byteOf_slot (slot : BitVec 6) : [byteOf slot.toNat] = encode (.index slot) := by
  rw [encode_index_byte]
  exact congrArg (fun b => [b]) (BitVec.ofInt_natCast 8 slot.toNat)

theorem encodeLoop_flush {ps : List Pixel} {prev : Pixel} {run : Nat} (cache : Cache) (h : run ≤ 61)
    (hf : run + 1 = 62 ∨ ps = []) :
    encodeLoop (prev :: ps) cache prev run = encode (.rle (run + 1)) ++ encodeLoop ps cache prev 0 := by
  rw [encodeLoop, if_pos rfl, if_pos hf, ← byteOf_run h]
  rfl

theorem encodeLoop_grow {ps : List Pixel} {prev : Pixel} {run : Nat} (cache : Cache) (hf : ¬(run + 1 = 62 ∨ ps = [])) :
    encodeLoop (prev :: ps) cache prev run = encodeLoop ps cache prev (run + 1) := by
  rw [encodeLoop, if_pos rfl, if_neg hf]

theorem encodeLoop_code {p prev : Pixel} {run : Nat} (ps : List Pixel) (cache : Cache) (h : run ≤ 61) (hp : p ≠ prev) :
    encodeLoop (p :: ps) cache prev run =
      chunkBytes (runChunks run ++ [codeChunk cache p prev]) ++ encodeLoop ps (codeCache cache p) p 0 := by
  have hrun : (if run > 0 then [byteOf (0xC0 + run - 1)] else []) = chunkBytes (runChunks run) := by
    unfold runChunks
    cases run with
    | zero => rfl
    | succ run =>
      rw [if_pos (Nat.succ_pos run), if_neg (Nat.succ_ne_zero run), chunkBytes_single, ← byteOf_run (by omega)]
      congr 2
      omega
  rw [encodeLoop, if_neg hp, hrun, chunkBytes_append, chunkBytes_single, List.append_assoc]
  unfold codeChunk codeCache
  split_ifs with hc
  · rw [← byteOf_slot]
    rfl
  · rw [freshBytes_eq]

/-! The machine -/

/-- The pixels still to be taken. -/
def Enc.pending (e : Enc) : List Pixel := (pixelsOf e.cfg.channels e.pixels).drop e.count

/-- What the chunk region of the output will be at the end of the operation: what is out, and the loop on the rest. -/
def Enc.total (e : Enc) : List Byte := e.out ++ encodeLoop e.pending e.cache e.prev e.run.toNat

theorem Enc.pending_of_end {e : Enc} (h : e.BusyInv) (hn : e.count = pixelCount e.cfg) : e.pending = [] :=
  List.drop_eq_nil_of_le (by rw [pixelsOf_length h.cfgLegal h.bufferFits, hn])

/-- The pixel that `PixRead` reads is the next of those still to be taken, and the last one if `count` says so. -/
theorem Enc.pending_of_pixRead {e : Enc} {p : Pixel} (h : e.BusyInv) (hp : e.pixRead e.count = some p) :
    e.pending = p :: (pixelsOf e.cfg.channels e.pixels).drop (e.count + 1) ∧
      ((pixelsOf e.cfg.channels e.pixels).drop (e.count + 1) = [] ↔ e.count + 1 = pixelCount e.cfg) := by
  have hx := Enc.count_lt_of_pixRead hp
  rw [Enc.pixRead_eq hx, ← pixelsOf_getElem? hx.2, List.getElem?_eq_some_iff] at hp
  obtain ⟨hlt, hget⟩ := hp
  refine ⟨by rw [Enc.pending, List.drop_eq_getElem_cons hlt, hget], ?_⟩
  rw [List.drop_eq_nil_iff, pixelsOf_length h.cfgLegal h.bufferFits]
  have := hx.1
  omega

/-- A pixel step moves bytes from the loop to the output. -/
theorem Enc.takePixel_total {e : Enc} {p : Pixel} (h : e.BusyInv) (hp : e.pixRead e.count = some p) :
    (e.takePixel p).total = e.total := by
  obtain ⟨hpend, hlast⟩ := Enc.pending_of_pixRead h hp
  have hsmall := h.runSmall
  unfold Enc.total
  rw [hpend]
  by_cases hprev : p = e.prev
  · subst hprev
    rw [Enc.takePixel_prev e hsmall]
    split_ifs with hflush
    · rw [encodeLoop_flush _ hsmall (hflush.imp_right hlast.mpr), encode_rle_succ hsmall, ← List.append_assoc]
      rfl
    · have hrun : (BitVec.ofNat 6 (e.run.toNat + 1)).toNat = e.run.toNat + 1 := Nat.mod_eq_of_lt (by omega)
      rw [encodeLoop_grow _ (mt (Or.imp_right hlast.mp) hflush)]
      simp only [hrun]
      rfl
  · rw [encodeLoop_code _ _ hsmall hprev, ← List.append_assoc, Enc.takePixel_coded e hprev]
    rfl

theorem core_run_succ {s t : State} (n : Nat) (h : step s = .next t) :
    Sys2Proof.core.run (n + 1) s = Sys2Proof.core.run n t := by
  have hs : Sys2Proof.core.step s = .next t := h
  simp only [Host.Core.run, hs]

/-- A busy encoder that is given its turns takes the pixels left and its end step (R132, R141). -/
theorem encoder_finishes {s : State} (hi : s.enc.BusyInv) (hb : s.enc.phase = .busy) (ha : s.agenda = [])
    (hd : s.dec.phase ≠ .busy) :
    ∃ t : State, Sys2Proof.core.run (pixelCount s.enc.cfg - s.enc.count + 1) s = .next t ∧ t.enc.phase = .done ∧
      t.enc.out = s.enc.total ++ endMarkerBytes := by
  induction hn : pixelCount s.enc.cfg - s.enc.count generalizing s with
  | zero =>
    have hend : s.enc.count = pixelCount s.enc.cfg := Nat.le_antisymm hi.countBounded (by omega)
    have hstep : step s = _ := (step_of_encTurn (.inr ⟨ha, rfl, hd⟩)).trans (encStep_finish hb hend)
    refine ⟨_, core_run_succ 0 hstep, rfl, ?_⟩
    rw [Enc.total, Enc.pending_of_end hi hend, encodeLoop, List.append_nil]
    rfl
  | succ n ih =>
    obtain ⟨p, hp⟩ := hi.pixRead_some (i := s.enc.count) (by omega)
    have hturn : s.pixelTurn [] p := ⟨.inr ⟨ha, rfl, hd⟩, hb, hp⟩
    have hcount : (s.enc.takePixel p).count = s.enc.count + 1 := by
      obtain ⟨_, _, _, _, h⟩ := s.enc.takePixel_fields p
      rw [h]
    rw [core_run_succ _ (step_of_pixelTurn hturn), ← s.enc.takePixel_total hi hp]
    refine ih (hi.keeps hp) ((Enc.takePixel_phase _ _).trans hb) rfl hd ?_
    show pixelCount (s.enc.takePixel p).cfg - (s.enc.takePixel p).count = n
    rw [Enc.takePixel_cfg, hcount]
    omega

/-- Settles O54: the start step holds the header and all of `ENCODE`'s loop is still to come, or raises `ENCODE`'s error. -/
theorem encoderRefinesEncode : Obligations.EncoderRefinesEncode := by
  intro s cfg pixels ha hb hd
  have hstep := step_startEncode ha hb
  unfold encodeImage
  cases hc : hdrEnc cfg with
  | error k =>
    refine ⟨_, hstep, ?_⟩
    rw [Enc.start_of_error _ _ hc]
    rfl
  | ok hdr =>
    dsimp only
    split_ifs with hl
    · refine ⟨_, hstep, ?_⟩
      rw [Enc.start_of_length _ hc hl]
      rfl
    · obtain ⟨hlegal, rfl⟩ := hdrEnc_ok_iff.mp hc
      rw [Enc.start_of_ok _ hc hl] at hstep
      obtain ⟨t, hrun, hdone, hout⟩ := encoder_finishes (s := { s with agenda := [], enc := _ })
        (Enc.start_busyInv (e := s.enc) hlegal (not_not.mp hl)) rfl rfl hd
      refine ⟨t, (core_run_succ _ hstep).trans hrun, ?_⟩
      rw [Enc.view, hdone, hout]
      rfl

end Sys2Proof.Machine
end

section
/-! PROOFS of 42_encoder.md section 4, property (a): the length of an encoded stream. -/

namespace Sys2Proof.Machine

theorem chunkBytes_runChunks_length (run : Nat) : (chunkBytes (runChunks run)).length = if run = 0 then 0 else 1 := by
  unfold runChunks
  split_ifs <;> rfl

/-- The loop spends at most `w` bytes on a pixel, and one on a run already pending. -/
theorem encodeLoop_length_le {w : Nat} (hw : w = 4 ∨ w = 5) {ps : List Pixel} {cache : Cache} {prev : Pixel} {run : Nat}
    (hrun : run ≤ 61) (ha : w = 4 → prev.a = 255 ∧ ∀ p ∈ ps, p.a = 255) :
    (encodeLoop ps cache prev run).length ≤ w * ps.length + if run = 0 then 0 else 1 := by
  induction ps generalizing cache prev run with
  | nil => exact Nat.zero_le _
  | cons p ps ih =>
    have hrest : w = 4 → p.a = 255 ∧ ∀ q ∈ ps, q.a = 255 := fun h4 =>
      ⟨(ha h4).2 p List.mem_cons_self, fun q hq => (ha h4).2 q (List.mem_cons_of_mem p hq)⟩
    rw [List.length_cons, Nat.mul_succ]
    by_cases hp : p = prev
    · subst hp
      by_cases hf : run + 1 = 62 ∨ ps = []
      · have h1 := ih (cache := cache) (Nat.zero_le _) hrest
        rw [if_pos rfl] at h1
        rw [encodeLoop_flush cache hrun hf, encode_rle_succ hrun, List.length_append, List.length_singleton]
        omega
      · rw [not_or] at hf
        have h1 := ih (cache := cache) (run := run + 1) (by omega) hrest
        rw [if_neg (Nat.succ_ne_zero run)] at h1
        rw [encodeLoop_grow cache (not_or.mpr hf)]
        omega
    · have h1 := ih (cache := codeCache cache p) (Nat.zero_le _) hrest
      have hcode : lengthOf (codeChunk cache p prev) ≤ w := by
        rcases hw with h4 | h5
        · have hcode := lengthOf_codeChunk_le cache p prev
          rwa [if_pos ((hrest h4).1.trans (ha h4).1.symm), ← h4] at hcode
        · exact h5 ▸ lengthOf_codeChunk_le_five cache p prev
      rw [if_pos rfl] at h1
      rw [encodeLoop_code ps cache hrun hp, chunkBytes_append, chunkBytes_single, List.length_append, List.length_append,
        chunkBytes_runChunks_length, encode_length]
      omega

/-- A pixel costs something: at the latest the last one flushes its run. -/
theorem encodeLoop_length_pos {ps : List Pixel} {cache : Cache} {prev : Pixel} {run : Nat} (hrun : run ≤ 61)
    (hps : ps ≠ []) : 1 ≤ (encodeLoop ps cache prev run).length := by
  induction ps generalizing cache prev run with
  | nil => exact absurd rfl hps
  | cons p ps ih =>
    by_cases hp : p = prev
    · subst hp
      by_cases hf : run + 1 = 62 ∨ ps = []
      · rw [encodeLoop_flush cache hrun hf, encode_rle_succ hrun]
        exact Nat.succ_pos _
      · rw [encodeLoop_grow cache hf]
        rw [not_or] at hf
        exact ih (by omega) hf.2
    · have hcode := lengthOf_pos (codeChunk cache p prev)
      rw [encodeLoop_code ps cache hrun hp, chunkBytes_append, chunkBytes_single, List.length_append, List.length_append,
        encode_length]
      omega

/-- What `ENCODE` answers: a legal configuration, a buffer of its length, and the three parts of the stream (R142). -/
theorem encodeImage_ok {cfg : ImageConfig} {pixels bytes : List Byte} (h : encodeImage cfg pixels = .ok bytes) :
    configError cfg = none ∧ pixels.length = bufferLength cfg ∧
      bytes = encode (.header cfg) ++ encodeLoop (pixelsOf cfg.channels pixels) Cache.init Config.prevInit 0 ++
        endMarkerBytes := by
  unfold encodeImage at h
  cases hc : hdrEnc cfg with
  | error k => simp [hc] at h
  | ok hdr =>
    obtain ⟨hlegal, rfl⟩ := hdrEnc_ok_iff.mp hc
    simp only [hc] at h
    split_ifs at h with hl
    cases h
    exact ⟨hlegal, not_not.mp hl, rfl⟩

/-- With 3 channels every pixel of the buffer has alpha 255 (R42). -/
theorem alpha_of_mem_rgbPixels (bs : List Byte) : ∀ p ∈ rgbPixels bs, p.a = 255 := by
  induction bs using rgbPixels.induct with
  | case1 r g b rest ih =>
    intro p hp
    rcases List.mem_cons.mp hp with rfl | hp
    · rfl
    · exact ih p hp
  | case2 bs h =>
    rw [rgbPixels]
    · exact nofun
    · exact h

/-- Settles O59: 14 bytes of header, 8 of marker, and the loop between its bounds. -/
theorem encodedLengthBounds : Obligations.EncodedLengthBounds := by
  intro cfg pixels bytes h
  obtain ⟨hc, hl, rfl⟩ := encodeImage_ok h
  have hn := pixelsOf_length hc hl
  have hpos := pixelCount_pos_of_configError hc
  have hne : pixelsOf cfg.channels pixels ≠ [] := fun hnil => by simp [hnil] at hn; omega
  have hlow := encodeLoop_length_pos (cache := Cache.init) (prev := Config.prevInit) (Nat.zero_le 61) hne
  have hhigh := encodeLoop_length_le (w := 5) (.inr rfl) (ps := pixelsOf cfg.channels pixels) (cache := Cache.init)
    (prev := Config.prevInit) (Nat.zero_le 61) (by omega)
  rw [if_pos rfl, hn] at hhigh
  have hhdr : (encode (.header cfg)).length = 14 := rfl
  simp only [List.length_append, hhdr, endMarkerBytes_length]
  refine ⟨by omega, by omega, fun h3 => ?_⟩
  have hrgb := encodeLoop_length_le (w := 4) (.inl rfl) (ps := pixelsOf cfg.channels pixels) (cache := Cache.init)
    (prev := Config.prevInit) (Nat.zero_le 61) fun _ => ⟨rfl, by rw [h3]; exact alpha_of_mem_rgbPixels pixels⟩
  rw [if_pos rfl, hn] at hrgb
  omega

end Sys2Proof.Machine
end

section
/-! PROOFS of 43_decoder.md section 5: decoding an encoded image gives it back (R173). -/

namespace Sys2Proof.Machine

/-- What `DECODE`'s loop does with the decoded chunk (R172). -/
def decodeNext (channels : Byte) (n : Nat) (cache : Cache) (prev : Pixel) (count : Nat) (out : List Byte) :
    Except Reject (Instr × List Byte) → Except ErrKind (Nat × List Byte)
  | .error _ => .error .unexpectedEndOfStream
  | .ok (.rle run, rest) =>
    if count + run > n then .error .pixelCountMismatch
    else decodeLoop channels n rest cache prev (count + run)
      (out ++ (List.replicate run (pixelBytes channels prev)).flatten)
  | .ok (i, rest) =>
    decodeLoop channels n rest (chunkCache i cache prev) (chunkPixel i cache prev) (count + 1)
      (out ++ pixelBytes channels (chunkPixel i cache prev))

theorem slot_extractLsb' (t : Byte) : t.extractLsb' 0 6 = BitVec.ofNat 6 (t.toNat % 64) := by
  apply BitVec.eq_of_toNat_eq
  rw [BitVec.extractLsb'_toNat, BitVec.toNat_ofNat, Nat.shiftRight_zero, Nat.mod_mod_of_dvd _ (Nat.dvd_refl 64)]

section decodeLoop
variable (channels : Byte) (n : Nat) (cache : Cache) (prev : Pixel) (count : Nat) (out : List Byte)

/-- The loop's arithmetic on the first byte is the decoder of chunks (R63, R172). -/
theorem decodeLoop_cons (t : Byte) (tail : List Byte) :
    decodeLoop channels n (t :: tail) cache prev count out =
      if count = n then .error .pixelCountMismatch
      else decodeNext channels n cache prev count out (decodeChunk (t :: tail)) := by
  have hrle (hFE : t ≠ 0xFE) (hFF : t ≠ 0xFF) (h0 : ¬t.toNat / 64 = 0) (h1 : ¬t.toNat / 64 = 1)
      (h2 : ¬t.toNat / 64 = 2) : 0xC0 ≤ t.toNat ∧ t.toNat ≤ 0xFD := by
    have hFE' := mt (eq_FE_iff t).mpr hFE
    have hFF' := mt (eq_FF_iff t).mpr hFF
    omega
  have hrun : (t.extractLsb' 0 6).toNat = t.toNat % 64 := by
    rw [BitVec.extractLsb'_toNat, Nat.shiftRight_zero]
  rw [decodeLoop.eq_def]
  dsimp only
  split_ifs with hc hFE hFF hIndex hDiff hLuma hOver
  · rfl
  · subst hFE
    match tail with
    | [] => rfl
    | [_] => rfl
    | [_, _] => rfl
    | _ :: _ :: _ :: _ => rfl
  · subst hFF
    match tail with
    | [] => rfl
    | [_] => rfl
    | [_, _] => rfl
    | [_, _, _] => rfl
    | _ :: _ :: _ :: _ :: _ => rfl
  · rw [decodeChunk_index (by omega), slot_extractLsb']
    rfl
  · rw [decodeChunk_diff (by omega), decodeDiff_eq]
    rfl
  · rw [decodeChunk_luma (by omega)]
    cases tail with
    | nil => rfl
    | cons u rest =>
      rw [decodeLuma_cons]
      rfl
  · rw [decodeChunk_rle (hrle hFE hFF hIndex hDiff hLuma), hrun]
    exact (if_pos hOver).symm
  · rw [decodeChunk_rle (hrle hFE hFF hIndex hDiff hLuma), hrun]
    exact (if_neg hOver).symm

theorem decodeLoop_chunk {i : Instr} {bs rest : List Byte} (hd : decodeChunk bs = .ok (i, rest)) (hc : count ≠ n) :
    decodeLoop channels n bs cache prev count out = decodeNext channels n cache prev count out (.ok (i, rest)) := by
  cases bs with
  | nil => cases hd
  | cons t tail => rw [decodeLoop_cons, if_neg hc, hd]

/-- A chunk of one pixel, in the loop. -/
theorem decodeLoop_writer {i : Instr} {bs rest : List Byte} (hd : decodeChunk bs = .ok (i, rest))
    (hw : writesPrev i = true) (hc : count ≠ n) :
    decodeLoop channels n bs cache prev count out =
      decodeLoop channels n rest (chunkCache i cache prev) (chunkPixel i cache prev) (count + 1)
        (out ++ pixelBytes channels (chunkPixel i cache prev)) := by
  rw [decodeLoop_chunk _ _ _ _ _ _ hd hc]
  cases i with
  | rle run => cases hw
  | _ => rfl

/-- A run that fits, in the loop. -/
theorem decodeLoop_rle {run : Nat} {bs rest : List Byte} (hd : decodeChunk bs = .ok (.rle run, rest))
    (hc : count ≠ n) (hn : count + run ≤ n) :
    decodeLoop channels n bs cache prev count out =
      decodeLoop channels n rest cache prev (count + run) (out ++ (List.replicate run (pixelBytes channels prev)).flatten) := by
  rw [decodeLoop_chunk _ _ _ _ _ _ hd hc]
  exact if_neg (Nat.not_lt.mpr hn)

end decodeLoop

/-- The bytes of pixels one after the other (R41). -/
def bufferOf (channels : Byte) (ps : List Pixel) : List Byte := ps.flatMap (pixelBytes channels)

theorem bufferOf_append (c : Byte) (ps qs : List Pixel) : bufferOf c (ps ++ qs) = bufferOf c ps ++ bufferOf c qs :=
  List.flatMap_append

theorem bufferOf_cons (c : Byte) (p : Pixel) (ps : List Pixel) : bufferOf c (p :: ps) = pixelBytes c p ++ bufferOf c ps :=
  List.flatMap_cons

theorem bufferOf_replicate (c : Byte) (run : Nat) (p : Pixel) :
    bufferOf c (List.replicate run p) = (List.replicate run (pixelBytes c p)).flatten := by
  rw [bufferOf, List.flatMap_def, List.map_replicate]

/-- Decoding a pending run that is flushed, if there is one. -/
theorem decodeLoop_runChunks (c : Byte) {n run count : Nat} (bs : List Byte) (cache : Cache) (prev : Pixel)
    (out : List Byte) (hrun : run ≤ 61) (hc : count + run < n) :
    decodeLoop c n (chunkBytes (runChunks run) ++ bs) cache prev count out =
      decodeLoop c n bs cache prev (count + run) (out ++ bufferOf c (List.replicate run prev)) := by
  unfold runChunks
  split_ifs with h0
  · subst h0
    rw [List.replicate_zero, bufferOf, List.flatMap_nil, List.append_nil]
    rfl
  · have hd := decodeChunk_encode_rle ⟨Nat.pos_of_ne_zero h0, Nat.le_succ_of_le hrun⟩ bs
    rw [chunkBytes_single, decodeLoop_rle c n cache prev count out hd (by omega) (by omega), bufferOf_replicate]

/-- Decoding the chunk of a pixel that is no run gives that pixel and the encoder's cache. -/
theorem decodeLoop_codeChunk (c : Byte) {n count : Nat} (bs : List Byte) (cache : Cache) (p prev : Pixel)
    (out : List Byte) (hc : count ≠ n) :
    decodeLoop c n (encode (codeChunk cache p prev) ++ bs) cache prev count out =
      decodeLoop c n bs (codeCache cache p) p (count + 1) (out ++ pixelBytes c p) := by
  obtain ⟨hwf, hf⟩ := codeChunk_wellFormed cache p prev
  have hd := decodeOfEncode (codeChunk cache p prev) bs hwf
  rw [hf] at hd
  rw [decodeLoop_writer c n cache prev count out hd (codeChunk_writesPrev _ _ _) hc, chunkPixel_codeChunk,
    chunkCache_codeChunk]

/-- The two loops in lockstep: decoding what the encoder emits for the pixels still to come writes them, after the pixels
of the run that was pending. -/
theorem decodeLoop_encodeLoop (c : Byte) {n run count : Nat} {ps : List Pixel} {cache : Cache} {prev : Pixel}
    {out : List Byte} (hrun : run ≤ 61) (hend : ps = [] → run = 0) (hn : count + run + ps.length = n) :
    decodeLoop c n (encodeLoop ps cache prev run) cache prev count out =
      .ok (n, out ++ bufferOf c (List.replicate run prev ++ ps)) := by
  induction ps generalizing cache prev run count out with
  | nil =>
    obtain rfl := hend rfl
    rw [← hn, encodeLoop, decodeLoop, List.replicate_zero]
    simp [bufferOf]
  | cons p ps ih =>
    rw [List.length_cons] at hn
    by_cases hp : p = prev
    · subst hp
      have hgrown : List.replicate run p ++ p :: ps = List.replicate (run + 1) p ++ ps := by
        rw [List.replicate_succ', List.append_assoc, List.singleton_append]
      rw [hgrown]
      by_cases hf : run + 1 = 62 ∨ ps = []
      · have hd := decodeChunk_encode_rle ⟨Nat.succ_pos run, Nat.succ_le_succ hrun⟩ (encodeLoop ps cache p 0)
        rw [encodeLoop_flush cache hrun hf, decodeLoop_rle c n cache p count out hd (by omega) (by omega),
          ih (Nat.zero_le _) (fun _ => rfl) (by omega), List.replicate_zero, List.nil_append, bufferOf_append,
          bufferOf_replicate, List.append_assoc]
      · rw [encodeLoop_grow cache hf]
        rw [not_or] at hf
        exact ih (by omega) (fun hnil => absurd hnil hf.2) (by omega)
    · rw [encodeLoop_code ps cache hrun hp, chunkBytes_append, chunkBytes_single, List.append_assoc,
        decodeLoop_runChunks c _ cache prev out hrun (by omega),
        decodeLoop_codeChunk c _ cache p prev _ (by omega), ih (Nat.zero_le _) (fun _ => rfl) (by omega)]
      simp only [bufferOf_append, bufferOf_cons, List.append_assoc]
      rfl

theorem bufferOf_rgbPixels (n : Nat) {bs : List Byte} (h : bs.length = n * 3) : bufferOf 3 (rgbPixels bs) = bs := by
  induction n generalizing bs with
  | zero =>
    rw [List.length_eq_zero_iff.mp (h.trans (Nat.zero_mul 3))]
    rfl
  | succ n ih =>
    rw [Nat.succ_mul] at h
    match bs, h with
    | r :: g :: b :: rest, h =>
      rw [rgbPixels, bufferOf_cons, ih (Nat.add_right_cancel (m := 3) h)]
      rfl

theorem bufferOf_rgbaPixels (n : Nat) {bs : List Byte} (h : bs.length = n * 4) : bufferOf 4 (rgbaPixels bs) = bs := by
  induction n generalizing bs with
  | zero =>
    rw [List.length_eq_zero_iff.mp (h.trans (Nat.zero_mul 4))]
    rfl
  | succ n ih =>
    rw [Nat.succ_mul] at h
    match bs, h with
    | r :: g :: b :: a :: rest, h =>
      rw [rgbaPixels, bufferOf_cons, ih (Nat.add_right_cancel (m := 4) h)]
      rfl

/-- A raw pixel buffer is the bytes of its pixels (R41, R42, R43). -/
theorem bufferOf_pixelsOf {cfg : ImageConfig} {pixels : List Byte} (hc : configError cfg = none)
    (hl : pixels.length = bufferLength cfg) : bufferOf cfg.channels (pixelsOf cfg.channels pixels) = pixels := by
  unfold bufferLength at hl
  rcases channels_of_configError hc with h | h <;> rw [h] at hl ⊢
  · exact bufferOf_rgbPixels _ hl
  · exact bufferOf_rgbaPixels _ hl

/-- The parts of a stream as `DECODE` takes it apart: the chunk region and the trailer (R49, R161). -/
theorem take_drop_of_parts {hdr body marker : List Byte} (hh : hdr.length = 14) (hm : marker.length = 8) :
    ((hdr ++ body ++ marker).take ((hdr ++ body ++ marker).length - 8)).drop 14 = body ∧
      (hdr ++ body ++ marker).drop ((hdr ++ body ++ marker).length - 8) = marker := by
  have hlen : (hdr ++ body ++ marker).length - 8 = (hdr ++ body).length := by
    rw [List.length_append, hm, Nat.add_sub_cancel]
  rw [hlen, List.take_left, List.drop_left, ← hh, List.drop_left]
  exact ⟨rfl, rfl⟩

/-- A stream whose loop gives every pixel and whose marker is whole is accepted (R172). -/
theorem decodeStream_of_parts {cfg : ImageConfig} {body out : List Byte} (hc : configError cfg = none)
    (hloop : decodeLoop cfg.channels (pixelCount cfg) body Cache.init Config.prevInit 0 [] = .ok (pixelCount cfg, out)) :
    decodeStream (encode (.header cfg) ++ body ++ endMarkerBytes) = .ok ⟨cfg, out⟩ := by
  have hdec : hdrDec (encode (.header cfg) ++ body ++ endMarkerBytes) = .ok cfg :=
    hdrDec_ok_iff.mpr ⟨hc, _, (List.append_assoc _ _ _).symm⟩
  obtain ⟨hbody, hmarker⟩ := take_drop_of_parts (hdr := encode (.header cfg)) (marker := endMarkerBytes) (body := body)
    rfl rfl
  have hlong : ¬(encode (.header cfg) ++ body ++ endMarkerBytes).length < 22 := by
    rw [List.length_append, List.length_append, endMarkerBytes_length, encode_length]
    show ¬14 + _ + 8 < 22
    omega
  have hwhole : ¬endMarkerBytes ≠ [0, 0, 0, 0, 0, 0, 0, 1] := not_not.mpr rfl
  simp only [decodeStream, hdec, if_neg hlong, hbody, hmarker, hloop, lt_irrefl, if_false, if_neg hwhole]

/-- What `DECODE` answers on the encoding of an image. -/
theorem decodeStream_of_encodeImage {cfg : ImageConfig} {pixels bytes : List Byte}
    (h : encodeImage cfg pixels = .ok bytes) : decodeStream bytes = .ok ⟨cfg, pixels⟩ := by
  obtain ⟨hc, hl, rfl⟩ := encodeImage_ok h
  have hps := pixelsOf_length hc hl
  have hne : pixelsOf cfg.channels pixels ≠ [] := fun hnil => by
    rw [hnil] at hps
    exact absurd hps.symm (pixelCount_pos_of_configError hc).ne'
  apply decodeStream_of_parts hc
  rw [decodeLoop_encodeLoop cfg.channels (n := pixelCount cfg) (Nat.zero_le 61) (fun hnil => absurd hnil hne) (by omega),
    List.nil_append, List.replicate_zero, List.nil_append, bufferOf_pixelsOf hc hl]

/-- Settles O56: the loops in lockstep; and an `RGBA` chunk of the start value of `prev`, which the encoder would emit as a
run, is decoded all the same. -/
theorem roundTrip : Obligations.RoundTrip := by
  refine ⟨fun _ _ _ h => decodeStream_of_encodeImage h,
    encode (.header ⟨1, 1, 4, 0⟩) ++ [0xFF, 0, 0, 0, 255] ++ endMarkerBytes, ⟨⟨1, 1, 4, 0⟩, [0, 0, 0, 255]⟩, ?_, ?_⟩
  · decide
  · decide

end Sys2Proof.Machine
end

section
/-! PROOFS of 43_decoder.md section 4: the decoder's steps compute `DECODE` (R172), within their bound (60_exceptions.md
section 4). -/

namespace Sys2Proof.Machine

/-! The output buffer as a list of bytes -/

theorem Memory.readBytes_eq_some_iff {m : Memory} {n k : Nat} {bs : List Byte} :
    Memory.readBytes m k n = some bs ↔ bs.length = n ∧ ∀ a, a < n → bs[a]? = Memory.read m (k + a) := by
  refine ⟨Memory.getElem?_of_readBytes, fun ⟨hlen, hget⟩ => ?_⟩
  obtain ⟨cs, hcs⟩ := Memory.readBytes_of_written (m := m) n (k := k) fun a ha => by
    rw [← hget a ha, isSome_getElem?]
    exact hlen ▸ ha
  obtain ⟨hlen', hget'⟩ := Memory.getElem?_of_readBytes hcs
  have hsame : bs = cs := List.ext_getElem? fun a => by
    by_cases ha : a < n
    · rw [hget a ha, hget' a ha]
    · rw [List.getElem?_eq_none (by omega), List.getElem?_eq_none (by omega)]
  rw [hsame, hcs]

/-- The bytes of the pixels written so far. -/
def Dec.Holds (d : Dec) (out : List Byte) : Prop :=
  Memory.readBytes d.outbuf 0 (d.count * d.cfg.channels.toNat) = some out

/-- Under the invariant the pixels written so far are there to be read. -/
theorem Dec.BusyInv.holds {d : Dec} (h : d.BusyInv) : ∃ out, d.Holds out :=
  Memory.readBytes_of_written _ fun a ha => by
    rw [Nat.zero_add]
    exact (h.written a).mpr ha

/-- Bytes written at the end of the written part are read after it. -/
theorem Memory.readBytes_writeBytes {m : Memory} {n : Nat} {out : List Byte} (h : Memory.readBytes m 0 n = some out)
    (xs : List Byte) : Memory.readBytes (Memory.writeBytes m n xs) 0 (n + xs.length) = some (out ++ xs) := by
  obtain ⟨hlen, hget⟩ := Memory.readBytes_eq_some_iff.mp h
  refine Memory.readBytes_eq_some_iff.mpr ⟨by rw [List.length_append, hlen], fun a ha => ?_⟩
  rw [Nat.zero_add, Memory.read_writeBytes]
  by_cases hlt : a < n
  · rw [if_neg (by omega), List.getElem?_append_left (by omega), hget a hlt, Nat.zero_add]
  · rw [if_pos (by omega), List.getElem?_append_right (by omega), hlen]

theorem Dec.Holds.afterChunk {d : Dec} {out : List Byte} (h : d.Holds out) (i : Instr)
    (hch : d.cfg.channels = 3 ∨ d.cfg.channels = 4) :
    (d.afterChunk i).Holds (out ++ pixelBytes d.cfg.channels (chunkPixel i d.cache d.prev)) := by
  have hw := Memory.readBytes_writeBytes h (pixelBytes d.cfg.channels (chunkPixel i d.cache d.prev))
  rwa [pixelBytes_length, ← toNat_channels hch, ← Nat.succ_mul] at hw

theorem Dec.Holds.afterRun {d : Dec} {out : List Byte} (h : d.Holds out) (run : Nat)
    (hch : d.cfg.channels = 3 ∨ d.cfg.channels = 4) : (d.afterRun run).Holds (out ++ runBytes d run) := by
  have hw := Memory.readBytes_writeBytes h (runBytes d run)
  rwa [runBytes_length d run hch, ← Nat.add_mul] at hw

/-! What is still to come -/

/-- What `DECODE` makes of the rest of the stream: its loop from here on, and its last checks (R172). -/
def Dec.result (d : Dec) (out : List Byte) : Except ErrKind RawImage :=
  match decodeLoop d.cfg.channels (pixelCount d.cfg) d.region d.cache d.prev d.count out with
  | .error k => .error k
  | .ok (count, out') =>
    if count < pixelCount d.cfg then .error .unexpectedEndOfStream
    else if d.bytes.drop (d.len - 8) ≠ [0, 0, 0, 0, 0, 0, 0, 1] then .error .malformedEndMarker
    else .ok ⟨d.cfg, out'⟩

/-- The host reads this outcome (R33). -/
def Dec.Shows (d : Dec) : Except ErrKind RawImage → Prop
  | .ok img => d.view = .done (some img)
  | .error k => d.view = .error (errCode (some k))

theorem Dec.raise_shows (d : Dec) (k : ErrKind) : (d.raise k).Shows (.error k) := rfl

theorem Dec.phase_of_shows {d : Dec} {r : Except ErrKind RawImage} (h : d.Shows r) :
    d.phase = .done ∨ d.phase = .error := by
  cases hp : d.phase with
  | done => exact .inl rfl
  | error => exact .inr rfl
  | idle => cases r <;> simp [Dec.Shows, Dec.view, viewOf, hp] at h
  | busy => cases r <;> simp [Dec.Shows, Dec.view, viewOf, hp] at h

/-- The region after the chunk at its front. -/
theorem Dec.region_after {d : Dec} {i : Instr} {rest : List Byte} (h : encode i ++ rest = d.region) :
    (d.bytes.take (d.len - Config.endLen)).drop (d.pos + lengthOf i) = rest := by
  rw [← List.drop_drop]
  show d.region.drop (lengthOf i) = rest
  rw [← h, ← encode_length, List.drop_left]

/-- In the region there is a byte to read. -/
theorem Dec.region_ne_nil {d : Dec} (h : d.BusyInv) (hr : d.inRegion) : ∃ t tail, d.region = t :: tail := by
  have hlen : 0 < d.region.length := by
    have h2 := hr.2
    simp only [Dec.region, List.length_drop, List.length_take, ← h.lengthKnown, Config.endLen] at h2 ⊢
    omega
  exact List.exists_cons_of_length_pos hlen

/-- One turn of a busy decoder that leaves it `BUSY`, with less of the region to go and the same outcome ahead. -/
structure Dec.Progress (d d' : Dec) (out : List Byte) : Prop where
  inv : d'.BusyInv
  busy : d'.phase = .busy
  remaining : d'.remaining < d.remaining
  result : ∃ out', d'.Holds out' ∧ d'.result out' = d.result out

theorem Dec.result_of_complete {d : Dec} (out : List Byte) (hi : d.BusyInv) (hr : d.inRegion)
    (hc : d.count = pixelCount d.cfg) : d.result out = .error .pixelCountMismatch := by
  obtain ⟨t, tail, ht⟩ := Dec.region_ne_nil hi hr
  rw [Dec.result, ht, decodeLoop_cons, if_pos hc]

theorem Dec.result_of_cut {d : Dec} {r : Reject} (out : List Byte) (hi : d.BusyInv) (hr : d.inRegion)
    (hd : decode .chunk d.region = .error r) :
    d.result out = .error (if d.count = pixelCount d.cfg then .pixelCountMismatch else .unexpectedEndOfStream) := by
  obtain ⟨t, tail, ht⟩ := Dec.region_ne_nil hi hr
  have hd' : decodeChunk (t :: tail) = .error r := ht ▸ hd
  rw [Dec.result, ht, decodeLoop_cons, hd']
  split_ifs <;> rfl

theorem Dec.progress_afterChunk {d : Dec} {i : Instr} {rest out : List Byte} (hi : d.BusyInv) (hr : d.inRegion)
    (hd : decode .chunk d.region = .ok (i, rest)) (hw : writesPrev i = true) (hc : d.count < pixelCount d.cfg)
    (ho : d.Holds out) : d.Progress (d.afterChunk i) out := by
  have hch := channels_of_configError hi.cfgLegal
  have hfront := (encode_of_decodeChunk hd).2
  have hlen := Dec.lengthOf_le_remaining hfront
  have hpos := lengthOf_pos i
  refine ⟨hi.afterChunk i ⟨hc, hch⟩ hlen, hr.1, ?_, _, ho.afterChunk i hch, ?_⟩
  · unfold Dec.remaining at hlen ⊢
    show d.len - Config.endLen - (d.pos + lengthOf i) < _
    omega
  · have hregion : (d.afterChunk i).region = rest := Dec.region_after hfront
    unfold Dec.result
    rw [hregion, decodeLoop_writer _ _ _ _ _ _ hd hw hc.ne]
    rfl

theorem Dec.progress_afterRun {d : Dec} {run : Nat} {rest out : List Byte} (hi : d.BusyInv) (hr : d.inRegion)
    (hd : decode .chunk d.region = .ok (.rle run, rest)) (hc : d.count < pixelCount d.cfg)
    (hn : d.count + run ≤ pixelCount d.cfg) (ho : d.Holds out) : d.Progress (d.afterRun run) out := by
  have hch := channels_of_configError hi.cfgLegal
  have hfront := (encode_of_decodeChunk hd).2
  have hlen : 1 ≤ d.remaining := Dec.lengthOf_le_remaining hfront
  refine ⟨hi.afterRun hn hlen, hr.1, ?_, _, ho.afterRun run hch, ?_⟩
  · unfold Dec.remaining at hlen ⊢
    show d.len - Config.endLen - (d.pos + 1) < _
    omega
  · have hregion : (d.afterRun run).region = rest := Dec.region_after hfront
    unfold Dec.result
    rw [hregion, decodeLoop_rle _ _ _ _ _ _ hd hc.ne hn]
    rfl

/-- A turn in the region raises the outcome's error or makes progress. -/
theorem decStep_region {s : State} {out : List Byte} (hi : s.dec.BusyInv) (hr : s.dec.inRegion) (ho : s.dec.Holds out) :
    ∃ d, decStep s = .next { s with dec := d } ∧ (d.Shows (s.dec.result out) ∨ s.dec.Progress d out) := by
  have hch := channels_of_configError hi.cfgLegal
  cases hd : decode .chunk s.dec.region with
  | error r =>
    refine ⟨_, decStep_cut hr hd, .inl ?_⟩
    rw [Dec.result_of_cut out hi hr hd]
    exact Dec.raise_shows _ _
  | ok x =>
    obtain ⟨i, rest⟩ := x
    obtain ⟨hwf, hfront⟩ := encode_of_decodeChunk hd
    have hf := frameOf_of_decodeChunk hd
    rw [decStep_chunk hr hd]
    by_cases hc : s.dec.count = pixelCount s.dec.cfg
    · refine ⟨_, completeImageRefusesChunk i s hf hr hc, .inl ?_⟩
      rw [Dec.result_of_complete out hi hr hc]
      exact Dec.raise_shows _ _
    · have hlt : s.dec.count < pixelCount s.dec.cfg := Nat.lt_of_le_of_ne hi.countBounded hc
      have hready : s.dec.readyFor (lengthOf i) := ⟨hr, hlt, Dec.lengthOf_le_remaining hfront, hch⟩
      rcases writesPrev_or_rle hf with hw | ⟨run, rfl⟩
      · exact ⟨_, exec_writer_of_readyFor hw hready, .inr (Dec.progress_afterChunk hi hr hd hw hlt ho)⟩
      · by_cases hn : pixelCount s.dec.cfg < s.dec.count + run
        · refine ⟨_, execRle_of_overrun hready hn, .inl ?_⟩
          rw [Dec.result, decodeLoop_chunk _ _ _ _ _ _ hd hc, decodeNext, if_pos hn]
          exact Dec.raise_shows _ _
        · exact ⟨_, execRle_of_fits hready hwf.1 (Nat.not_lt.mp hn),
            .inr (Dec.progress_afterRun hi hr hd hlt (Nat.not_lt.mp hn) ho)⟩

/-- At the end of the region only the last checks are left of `DECODE`. -/
theorem Dec.result_of_end {d : Dec} (out : List Byte) (h : d.region = []) :
    d.result out =
      if d.count < pixelCount d.cfg then .error .unexpectedEndOfStream
      else if d.bytes.drop (d.len - 8) = endMarkerBytes then .ok ⟨d.cfg, out⟩
      else .error .malformedEndMarker := by
  simp only [Dec.result, h, decodeLoop, ne_eq, ite_not]
  rfl

theorem Dec.region_of_atTrailer {d : Dec} (h : d.atTrailer) : d.region = [] := by
  have hlen := d.region_length_le
  have h2 := h.2
  unfold Dec.remaining at hlen
  exact List.length_eq_zero_iff.mp (by omega)

/-- A whole image, once `DONE`, is what has been written (R33). -/
theorem Dec.Holds.shows {d : Dec} {out : List Byte} (h : d.Holds out) (hc : d.count = pixelCount d.cfg) :
    Dec.Shows { d with phase := .done } (.ok ⟨d.cfg, out⟩) := by
  have himage : Memory.readBytes d.outbuf 0 (bufferLength d.cfg) = some out := by
    rw [bufferLength, ← hc]
    exact h
  show View.done ((Memory.readBytes d.outbuf 0 (bufferLength d.cfg)).map _) = _
  rw [himage]
  rfl

/-- The turn at the trailer shows the outcome (R171). -/
theorem decStep_trailer {s : State} {out : List Byte} (hi : s.dec.BusyInv) (hat : s.dec.atTrailer)
    (ho : s.dec.Holds out) : ∃ d, decStep s = .next { s with dec := d } ∧ d.Shows (s.dec.result out) := by
  rw [decStep_atTrailer hat, Dec.trailer_take hat.2 hi.lengthKnown, Dec.result_of_end out (Dec.region_of_atTrailer hat)]
  by_cases hc : s.dec.count = pixelCount s.dec.cfg
  · rw [if_neg hc.not_lt, finishStep_of_whole _ hat hc]
    by_cases hm : s.dec.bytes.drop (s.dec.len - 8) = endMarkerBytes
    · refine ⟨_, if_pos (decide_eq_true hm), ?_⟩
      rw [if_pos hm]
      exact ho.shows hc
    · refine ⟨_, if_neg (mt of_decide_eq_true hm), ?_⟩
      rw [if_neg hm]
      exact Dec.raise_shows _ _
  · refine ⟨_, finishStep_of_short _ hat hc, ?_⟩
    rw [if_pos (Nat.lt_of_le_of_ne hi.countBounded hc)]
    exact Dec.raise_shows _ _

/-- A busy decoder that is given its turns ends, after at most one step per byte of the region and its finish step, with
the outcome of `DECODE` on the rest of the stream. -/
theorem decoder_finishes {s : State} {out : List Byte} (hi : s.dec.BusyInv) (hb : s.dec.phase = .busy)
    (ha : s.agenda = []) (ho : s.dec.Holds out) :
    ∃ (k : Nat) (t : State), k ≤ s.dec.remaining + 1 ∧ Sys2Proof.core.run k s = .next t ∧
      t.dec.Shows (s.dec.result out) := by
  induction hn : s.dec.remaining using Nat.strong_induction_on generalizing s out with
  | _ n ih =>
    have hstep : step s = decStep { s with agenda := [] } := step_of_decTurn (.inr ⟨ha, rfl, hb⟩)
    rcases Nat.lt_or_eq_of_le hi.cursorHigh with hlt | heq
    · obtain ⟨d, hd, hshows | hprogress⟩ := decStep_region (s := { s with agenda := [] }) hi ⟨hb, hlt⟩ ho
      · exact ⟨1, _, by omega, core_run_succ 0 (hstep.trans hd), hshows⟩
      · obtain ⟨out', ho', hresult⟩ := hprogress.result
        have hless := hprogress.remaining
        obtain ⟨k, t, hk, hrun, ht⟩ := ih d.remaining (hn ▸ hless) (s := { s with agenda := [], dec := d })
          hprogress.inv hprogress.busy rfl ho' rfl
        refine ⟨k + 1, t, ?_, (core_run_succ k (hstep.trans hd)).trans hrun, hresult ▸ ht⟩
        have hless' : d.remaining < s.dec.remaining := hless
        omega
    · obtain ⟨d, hd, hshows⟩ := decStep_trailer (s := { s with agenda := [] }) hi ⟨hb, heq⟩ ho
      exact ⟨1, _, by omega, core_run_succ 0 (hstep.trans hd), hshows⟩

theorem Dec.begin_holds (d : Dec) (cfg : ImageConfig) : (d.begin cfg).Holds [] := by
  rw [Dec.Holds, Dec.begin_count, Nat.zero_mul]
  rfl

/-- The outcome ahead of a decoder that has just been started is `DECODE`'s. -/
theorem Dec.result_begin (d : Dec) {cfg : ImageConfig} {bytes : List Byte} (h : hdrDec bytes = .ok cfg)
    (hl : ¬bytes.length < 22) :
    (Dec.begin { d with err := none, bytes := bytes, len := bytes.length } cfg).result [] = decodeStream bytes := by
  rw [decodeStream, h]
  dsimp only
  rw [if_neg hl]
  rfl

/-- Settles O55: the start step raises `DECODE`'s error or leaves its loop to come. -/
theorem decoderRefinesDecode : Obligations.DecoderRefinesDecode := by
  intro s bytes ha hb
  have hstep := step_startDecode_eq ha hb
  suffices h : ∃ (k : Nat) (t : State), k ≤ bytes.length + 1 ∧ Sys2Proof.core.run k s = .next t ∧
      t.dec.Shows (decodeStream bytes) by
    obtain ⟨k, t, hk, hrun, ht⟩ := h
    refine ⟨k, t, hk, hrun, ?_⟩
    cases hr : decodeStream bytes <;> exact hr ▸ ht
  cases hd : hdrDec bytes with
  | error k =>
    refine ⟨1, _, by omega, core_run_succ 0 hstep, ?_⟩
    rw [Dec.started_of_error _ hd, decodeStream, hd]
    exact Dec.raise_shows _ _
  | ok cfg =>
    by_cases hl : bytes.length < 22
    · refine ⟨1, _, by omega, core_run_succ 0 hstep, ?_⟩
      rw [Dec.started_of_short _ hd hl, decodeStream, hd]
      dsimp only
      rw [if_pos hl]
      exact Dec.raise_shows _ _
    · rw [Dec.started_of_ok _ hd hl] at hstep
      obtain ⟨k, t, hk, hrun, ht⟩ := decoder_finishes (s := { s with agenda := [], dec := _ }) (out := [])
        (Dec.begin_busyInv (d := s.dec) (hdrDec_ok_iff.mp hd).1 (Nat.not_lt.mp hl)) rfl rfl
        (Dec.begin_holds _ cfg)
      refine ⟨k + 1, t, ?_, (core_run_succ k hstep).trans hrun, ?_⟩
      · have hrem : k ≤ bytes.length - 8 - 14 + 1 := hk
        omega
      · rw [← Dec.result_begin s.dec hd hl]
        exact ht

/-- Settles O58: both operations finish, whatever their outcome. -/
theorem operationsEnd : Obligations.OperationsEnd := by
  refine ⟨fun s hi ha hb hd => ?_, fun s hi ha hb => ?_, fun _ h => h.2⟩
  · obtain ⟨t, hrun, hdone, _⟩ := encoder_finishes (hi.enc.busy hb) hb ha hd
    exact ⟨t, hrun, hdone⟩
  · obtain ⟨out, ho⟩ := (hi.dec.busy hb).holds
    obtain ⟨k, t, hk, hrun, ht⟩ := decoder_finishes (hi.dec.busy hb) hb ha ho
    exact ⟨k, t, hk, hrun, Dec.phase_of_shows ht⟩

end Sys2Proof.Machine
end
